-- ==== Sys2Proof/Word.lean ====
section
/-! DEFINITION. The units of data: a byte (R9) and a motor position (R10). -/

namespace Sys2Proof

/-- "Every wire unit, payload unit and buffer entry is a byte with a value in 0..255" (R9). -/
abbrev Byte := BitVec 8

/-- "An unsigned 16-bit step count per stub" (R10). -/
abbrev Pos := BitVec 16

end Sys2Proof
end

