-- ==== Sys2Proof/Config.lean ====
section
/-! DEFINITION. What an instance of the block fixes (the parameters R12 to R16), the error names (R250), the answers the
environment can give (R71, R72), and the free values: constants with no body, of which nothing can be proved. -/

namespace Sys2Proof

/-- `P_ACK_KIND` (R13): the read that acknowledges the ATC and M1H commands. -/
inductive AckKind where
  | confirm
  | object
  deriving DecidableEq, Repr, Inhabited

/-- `P_ATC_POLARITY` (R14). -/
inductive Polarity where
  | oneIsOn
  | zeroIsOn
  deriving DecidableEq, Repr, Inhabited

/-- The five error classes (R250). Their numbers are `errNumber`. -/
inductive ErrCode where
  | notConnected
  | transportError
  | timeout
  | invalidArgument
  | protocolDesync
  deriving DecidableEq, Repr, Inhabited

/-- What `RxRead()` can return (R22, R72). -/
inductive RxEvent where
  | byte (b : Byte)
  | timeout
  | rxError
  deriving DecidableEq, Repr, Inhabited

/-- What `TxWrite` can do (R71): take the whole frame, or fail after the first `sent` bytes of it. A `sent` past the
end of the frame is the whole frame, so every prefix is covered. -/
inductive WriteDraw where
  | ok
  | fail (sent : Nat)
  deriving DecidableEq, Repr, Inhabited

/-- The parameters of an instance (R12 to R16, R39): "fixed when a block is instantiated; the model takes them as
arguments". They stand in State, and no step writes them. -/
structure Params where
  /-- `P_MOTOR_SET_OPCODE` (R12, R38). -/
  motorSet : Byte
  /-- `P_ACK_KIND` (R13). -/
  ack : AckKind
  /-- `P_ATC_POLARITY` (R14). -/
  polarity : Polarity
  /-- `P_MAX_PAYLOAD` (R15). -/
  maxPayload : Nat
  /-- `P_MAX_RESYNC` (R16); `none` is `INF`. -/
  maxResync : Option Nat
  deriving DecidableEq, Repr

/-- The domains of R12 and R15: the motor-set opcode is not 128, and the buffer holds at least 7 bytes. -/
def Params.wf (p : Params) : Bool := p.motorSet != 128 && decide (7 ≤ p.maxPayload)

/-- OPEN (R12): any byte. `Config.params` takes 0 in place of the excluded 128, so every admissible value remains open. -/
opaque Config.motorSetRaw : Byte

/-- OPEN (R13). -/
opaque Config.ackKind : AckKind

/-- OPEN (R16). -/
opaque Config.maxResync : Option Nat

/-- The parameters of the instance that `State.reset` creates: OPEN ones have no value, the others the spec's (R14, R15). -/
def Config.params : Params where
  motorSet := if Config.motorSetRaw = 128 then 0 else Config.motorSetRaw
  ack := Config.ackKind
  polarity := .oneIsOn
  maxPayload := 64
  maxResync := Config.maxResync

/-- Free value: the bytes the environment already holds when the instance is created, "any byte sequence" (R59, R281, I9). -/
opaque Config.resetBacklog : List Byte

/-- Free value: the RX event the environment delivers once the listed ones are used up (R59, R72, I6, I9). -/
opaque Config.freeRx : Nat → RxEvent

/-- Free value: the outcome of a `TxWrite` with no listed answer left (R71, I8). -/
opaque Config.freeWrite : Nat → WriteDraw

/-- Free value: whether `environment.open` succeeds when no listed answer is left (R221, I14). -/
opaque Config.freeOpen : Nat → Bool

end Sys2Proof
end

