-- ==== Sys2Proof/Machine/Codec.lean ====
section
/-! DEFINITION. The hardwired constants (R30 to R37) and the Frame Codec: escape, unescape and the two framing
primitives (R120 to R124). Pure functions: they read only their operands (R128). -/

namespace Sys2Proof.Machine

/-- R30. -/
def MARKER : Byte := 128
/-- R31. -/
def DATA_BEGIN : Byte := 28
/-- R32. -/
def MDO_END : Byte := 16
/-- R33. -/
def CONFIRM : Byte := 4
/-- R34. -/
def GENERIC_END : Byte := 99
/-- R35. -/
def OP_MOTOR_INIT : Byte := 69
/-- R36. -/
def OP_MOTOR_READ : Byte := 74
/-- R37. -/
def OP_MOTOR_STOP : Byte := 19

/-- `escape(p)` (R120): every byte 128 doubled, every other byte unchanged. -/
def escape : List Byte → List Byte
  | [] => []
  | b :: p => if b = MARKER then MARKER :: MARKER :: escape p else b :: escape p

/-- The front of `unescape`'s loop: a byte put before what the rest of the sequence gives. -/
def prependByte (b : Byte) : Option (List Byte) → Option (List Byte)
  | none => none
  | some out => some (b :: out)

/-- `unescape(s)` (R122); `none` is INVALID: a 128 that is not the first byte of an escaped pair in unit alignment. -/
def unescape : List Byte → Option (List Byte)
  | [] => some []
  | [b] => if b = MARKER then none else some [b]
  | b :: c :: s =>
    if b = MARKER then
      if c = MARKER then prependByte MARKER (unescape s) else none
    else prependByte b (unescape (c :: s))

/-- The first control pair of `s`, scanned in the units of R121: its index and its code; `none` where there is none.
`start` is the index of the sequence's first byte. -/
def firstControlPair (start : Nat) : List Byte → Option (Nat × Byte)
  | [] => none
  | [_] => none
  | b :: c :: s =>
    if b = MARKER then
      if c = MARKER then firstControlPair (start + 2) s else some (start, c)
    else firstControlPair (start + 1) (c :: s)

/-- `STUFF_CMD(op)` (R90, R123). -/
def stuffCmdFrame (op : Byte) : Except ErrCode (List Byte) :=
  if op = MARKER then .error .invalidArgument else .ok [MARKER, op]

/-- `STUFF_OBJ(p, end)` (R91, R124). -/
def stuffObjFrame (payload : List Byte) (endCode : Byte) : Except ErrCode (List Byte) :=
  if endCode = MARKER then .error .invalidArgument
  else .ok ([MARKER, DATA_BEGIN] ++ escape payload ++ [MARKER, endCode])

end Sys2Proof.Machine
end

