-- ==== Sys2Proof/Machine/Flags.lean ====
section
/-! DEFINITION. The bits of the MDO status byte HST (R54 to R57) and the shape flag computed from them (R192). The block
holds no other condition codes. -/

namespace Sys2Proof.Machine

/-- Bit `n` of a byte, bit 0 the least significant (R20). -/
def bitOf (n : Nat) (v : Byte) : Bool := v.getLsbD n

/-- "Motor data included" (R54). -/
def hstMotorData (hst : Byte) : Bool := bitOf 4 hst

/-- A response to a query, as against a periodic push (R55). -/
def hstQueryResponse (hst : Byte) : Bool := bitOf 5 hst

/-- "Measurement results included" (R56). -/
def hstMeasurements (hst : Byte) : Bool := bitOf 2 hst

/-- `shape_verified(buf)` (R192): ten payload bytes, bits 4 and 5 of the first set, bit 2 clear. -/
def shapeVerified (buf : List Byte) : Bool :=
  buf.length == 10 && hstMotorData (buf.headD 0) && hstQueryResponse (buf.headD 0) && !hstMeasurements (buf.headD 0)

end Sys2Proof.Machine
end

