-- ==== Sys2Proof/Machine/Operands.lean ====
section
/-! DEFINITION. How operands enter and leave a frame: ASCII text and its grammar (R76, R98 to R102), decimal formatting
(R140), LE16 (R21, R75), and the frame of each encoder command (R141 to R150), a pure function of the operands and the
parameters (R152). -/

namespace Sys2Proof.Machine

/-- `ascii(str)`: the US-ASCII code of each character (R22, R101). -/
def ascii (cs : List Char) : List Byte := cs.map fun c => BitVec.ofNat 8 c.toNat

/-- The byte `0x30 + d` of a decimal digit (R101). -/
def digitByte (d : Nat) : Byte := BitVec.ofNat 8 (48 + d)

/-- The digits of `v`, most significant first, by the division loop of R140; `fuel` bounds the number of divisions. -/
def decDigits : Nat → Nat → List Byte
  | 0, v => [digitByte (v % 10)]
  | fuel + 1, v => if v < 10 then [digitByte v] else decDigits fuel (v / 10) ++ [digitByte (v % 10)]

/-- Decimal text with no sign, leading zero or padding (R76, R140). A number `v` has at most `v + 1` digits. -/
def decNat (v : Nat) : List Byte := decDigits v v

/-- `dec(v)` of a position (R140). -/
def dec (v : Pos) : List Byte := decNat v.toNat

/-- `LE16(lo, hi) = zext_16(lo) + 256 * zext_16(hi)` (R21, R75). -/
def LE16 (lo hi : Byte) : Pos := lo.zeroExtend 16 + 256 * hi.zeroExtend 16

/-- The payload of autotune on (R144) and, with the other truth value, off (R145): the character follows `P_ATC_POLARITY`. -/
def atcPayload (polarity : Polarity) (on : Bool) : List Byte :=
  match polarity, on with
  | .oneIsOn, true => ascii ['A', 'T', 'C', ' ', '1']
  | .oneIsOn, false => ascii ['A', 'T', 'C', ' ', '0']
  | .zeroIsOn, true => ascii ['A', 'T', 'C', ' ', '0']
  | .zeroIsOn, false => ascii ['A', 'T', 'C', ' ', '1']

/-- `"M1H " ++ [0x30 + n]` (R99). -/
def stubHomePayload (n : Nat) : List Byte := ascii ['M', '1', 'H', ' '] ++ [digitByte n]

/-- `"MPO " ++ dec(p1) ++ " " ++ dec(p2) ++ " " ++ dec(p3) ++ CR LF` (R100). -/
def setPosPayload (p1 p2 p3 : Pos) : List Byte :=
  ascii ['M', 'P', 'O', ' '] ++ dec p1 ++ [0x20] ++ dec p2 ++ [0x20] ++ dec p3 ++ [0x0D, 0x0A]

/-- The stub domain of R11. -/
def isStub (n : Nat) : Bool := n == 1 || n == 2 || n == 3

/-- R141. -/
def frameStop : Except ErrCode (List Byte) := stuffCmdFrame OP_MOTOR_STOP

/-- R142. -/
def frameHomeAll : Except ErrCode (List Byte) := stuffCmdFrame OP_MOTOR_INIT

/-- R143. -/
def frameMread : Except ErrCode (List Byte) := stuffCmdFrame OP_MOTOR_READ

/-- R144. -/
def frameAtcOn (p : Params) : Except ErrCode (List Byte) := stuffObjFrame (atcPayload p.polarity true) GENERIC_END

/-- R145. -/
def frameAtcOff (p : Params) : Except ErrCode (List Byte) := stuffObjFrame (atcPayload p.polarity false) GENERIC_END

/-- R146. -/
def frameAtcStep : Except ErrCode (List Byte) := stuffObjFrame (ascii ['A', 'T', 'C', ' ', 'S']) GENERIC_END

/-- R147: the check of the stub id is made at the encoder too. -/
def frameStubHome (n : Nat) : Except ErrCode (List Byte) :=
  if isStub n then stuffObjFrame (stubHomePayload n) GENERIC_END else .error .invalidArgument

/-- R148. -/
def framePushOn : Except ErrCode (List Byte) := stuffObjFrame (ascii ['A', 'T', 'C', ' ', 'T']) GENERIC_END

/-- R149. -/
def framePushOff : Except ErrCode (List Byte) := stuffObjFrame (ascii ['A', 'T', 'C', ' ', 'F']) GENERIC_END

/-- R150: the end code is `OP_MOTOR_SET = P_MOTOR_SET_OPCODE` (R38). -/
def frameSetPos (p : Params) (p1 p2 p3 : Pos) : Except ErrCode (List Byte) :=
  stuffObjFrame (setPosPayload p1 p2 p3) p.motorSet

end Sys2Proof.Machine
end

