-- ==== Sys2Proof/Syntax.lean ====
section
/-! DEFINITION. The instruction set: one constructor for each of the 30 rows of spec/opcode_table.json. -/

namespace Sys2Proof

/-- The operations of R109 and the RX control pairs of R95. -/
inductive Instr where
  /-- `STUFF_CMD op` (R123). -/
  | stuffCmd (op : Byte)
  /-- `STUFF_OBJ [b0, b1, ...], end` (R124). -/
  | stuffObj (payload : List Byte) (endCode : Byte)
  /-- `E_STOP` (R141). -/
  | eStop
  /-- `E_HOME_ALL` (R142). -/
  | eHomeAll
  /-- `E_MREAD` (R143). -/
  | eMread
  /-- `E_ATC_ON` (R144). -/
  | eAtcOn
  /-- `E_ATC_OFF` (R145). -/
  | eAtcOff
  /-- `E_ATC_STEP` (R146). -/
  | eAtcStep
  /-- `E_STUB_HOME n` (R147); `n` is "an unsigned integer". -/
  | eStubHome (n : Nat)
  /-- `E_PUSH_ON` (R148). -/
  | ePushOn
  /-- `E_PUSH_OFF` (R149). -/
  | ePushOff
  /-- `E_SET_POS p1, p2, p3` (R150). -/
  | eSetPos (p1 p2 p3 : Pos)
  /-- The RX pair `[128, 128]` (R95, R179, R185). -/
  | rxEscaped128
  /-- The RX pair `[128, 28]` (R95, R180, R181, R186). -/
  | rxDataBegin
  /-- The RX pair `[128, 16]` (R95, R180, R181, R188). -/
  | rxMdoEnd
  /-- The RX pair `[128, 4]` (R95, R180, R181, R187). -/
  | rxConfirm
  /-- The RX pair `[128, c]`, `c` none of 128, 28, 16, 4 (R95, R180, R181, R187). -/
  | rxOtherPair (c : Byte)
  /-- `RD_CONFIRM` (R193). -/
  | rdConfirm
  /-- `RD_OBJECT` (R194). -/
  | rdObject
  /-- `RD_MOTOR` (R195). -/
  | rdMotor
  /-- `connect addr, baud` (R221); both operands are opaque to the block. -/
  | connect (address : List Byte) (baud : Nat)
  /-- `close` (R222). -/
  | close
  /-- `setMotorPositions p1, p2, p3` (R223). -/
  | setMotorPositions (p1 p2 p3 : Pos)
  /-- `readMotorPositions` (R224). -/
  | readMotorPositions
  /-- `allStubsHome` (R225). -/
  | allStubsHome
  /-- `hardStopMotors` (R230). -/
  | hardStopMotors
  /-- `autotuning on` (R226). -/
  | autotuning (on : Bool)
  /-- `singleAutotuningStep` (R227). -/
  | singleAutotuningStep
  /-- `selectedStubHome n` (R228). -/
  | selectedStubHome (n : Nat)
  /-- `sendTunePositionsOnOff on` (R229). -/
  | sendTunePositionsOnOff (on : Bool)
  deriving DecidableEq, Repr

end Sys2Proof
end

