-- ==== Sys2Proof/WellFormed.lean ====
section
/-! DEFINITION. Which instructions are instructions at all (`wellFormed`), and which have a spelling in R109's operation
syntax (`spellable`). Operand values the spec answers with an error (opcode 128, stub 4) are well formed: they run. -/

namespace Sys2Proof

/-- The row RX_OTHER_PAIR holds "any value not in (0x80, 0x1C, 0x10, 0x04)" (R95, opcode_table.json); every other row
admits every value of its operands' types. -/
def Instr.wellFormed : Instr → Bool
  | .rxOtherPair c => c != 128 && c != 28 && c != 16 && c != 4
  | .stuffCmd _ | .stuffObj _ _ | .eStop | .eHomeAll | .eMread | .eAtcOn | .eAtcOff | .eAtcStep | .eStubHome _
  | .ePushOn | .ePushOff | .eSetPos _ _ _ | .rxEscaped128 | .rxDataBegin | .rxMdoEnd | .rxConfirm
  | .rdConfirm | .rdObject | .rdMotor | .connect _ _ | .close | .setMotorPositions _ _ _ | .readMotorPositions
  | .allStubsHome | .hardStopMotors | .autotuning _ | .singleAutotuningStep | .selectedStubHome _
  | .sendTunePositionsOnOff _ => true

/-- A connect address is spelled between double quotes (the programs of 95_test_vectors.md), so one that holds a double
quote (0x22) has no spelling. It still runs: the address is opaque to the block (R221). -/
def Instr.addressSpellable : Instr → Bool
  | .connect a _ => !a.contains 0x22
  | .stuffCmd _ | .stuffObj _ _ | .eStop | .eHomeAll | .eMread | .eAtcOn | .eAtcOff | .eAtcStep | .eStubHome _
  | .ePushOn | .ePushOff | .eSetPos _ _ _ | .rxEscaped128 | .rxDataBegin | .rxMdoEnd | .rxConfirm | .rxOtherPair _
  | .rdConfirm | .rdObject | .rdMotor | .close | .setMotorPositions _ _ _ | .readMotorPositions
  | .allStubsHome | .hardStopMotors | .autotuning _ | .singleAutotuningStep | .selectedStubHome _
  | .sendTunePositionsOnOff _ => true

/-- Well formed, and with a spelling that `encode` can write and `decode` reads back. -/
def Instr.spellable (i : Instr) : Bool := i.wellFormed && i.addressSpellable

end Sys2Proof
end

