-- ==== Sys2Proof/Decode.lean ====
section
/-! DEFINITION. Reading and writing instructions as bytes. The spec gives three encodings, and this file decodes each,
total on any bytes and rejecting by name:
`decode`, the spelling of an operation (R109) or an RX control pair (R95);
`decodeFrame`, a TX frame (F-CMD R90, F-OBJ R91) as the command that sends it (R97, R98 to R100);
`decodeTableWord`, a row of spec/opcode_table.json by its bit pattern.
`encode` writes what `decode` reads; `frameOf` gives the frame of a primitive or an encoder command. -/

namespace Sys2Proof

open Sys2Proof.Machine

/-- Why bytes are no instruction. -/
inductive Reject where
  /-- No bytes at all. -/
  | empty
  /-- A byte that R109's syntax does not use outside a quoted address. -/
  | strayByte (b : Byte)
  /-- A numeral with a character that is no digit of its base. -/
  | badNumber
  /-- A quoted address that does not end. -/
  | openString
  /-- The first token is no mnemonic of R109. -/
  | unknownMnemonic
  /-- The instrument command "reset", which "has no encoding anywhere" (R108, N2). -/
  | resetHasNoEncoding
  /-- A mnemonic with operands that are not its own. -/
  | badOperands
  /-- A byte operand above 255 or a position above 65535 (R9, R10). -/
  | outOfRange
  /-- A lone 128, or bytes after a complete pair. -/
  | notOnePair
  /-- A TX frame begins with 128 (R90, R91). -/
  | noMarker
  /-- `[128, 128]` is an escaped literal, no command (R105). -/
  | escapedLiteral
  /-- `[128, 28]` opens an object that does not end (R103). -/
  | openObject
  deriving DecidableEq, Repr

/-! ## The operation syntax of R109 -/

/-- The tokens of an operation's spelling. -/
inductive Token where
  | word (w : List Byte)
  | num (n : Nat)
  | str (s : List Byte)
  | comma
  | openBracket
  | closeBracket
  deriving DecidableEq, Repr

/-- Where the lexer is: between tokens, in a word or numeral, in a quoted address (what is read so far, in order). -/
inductive LexMode where
  | between
  | inWord (soFar : List Byte)
  | inString (soFar : List Byte)
  deriving DecidableEq, Repr

def isDigit (b : Byte) : Bool := decide (0x30 ≤ b.toNat) && decide (b.toNat ≤ 0x39)

def isLetter (b : Byte) : Bool :=
  (decide (0x41 ≤ b.toNat) && decide (b.toNat ≤ 0x5A)) || (decide (0x61 ≤ b.toNat) && decide (b.toNat ≤ 0x7A))

/-- The bytes of mnemonics, numerals, `true` and `false`: letters, digits and the underscore. -/
def isWordByte (b : Byte) : Bool := isDigit b || isLetter b || b == 0x5F

/-- The value of a digit of base ten or sixteen. R109 names no letters for the digits past nine: `A` to `F` and `a` to `f` both
count (DESIGN CHOICE, log 27). -/
def digitValue (hex : Bool) (b : Byte) : Option Nat :=
  if isDigit b then some (b.toNat - 0x30)
  else if hex && decide (0x41 ≤ b.toNat) && decide (b.toNat ≤ 0x46) then some (b.toNat - 0x37)
  else if hex && decide (0x61 ≤ b.toNat) && decide (b.toNat ≤ 0x66) then some (b.toNat - 0x57)
  else none

/-- A numeral's value, `acc` that of the digits before; `none` where a byte is no digit. Leading zeros, of which R109 says
nothing, are digits like any other, and a numeral may have any length (DESIGN CHOICE, log 27). -/
def numeralValue (hex : Bool) (acc : Nat) : List Byte → Option Nat
  | [] => some acc
  | b :: s =>
    match digitValue hex b with
    | some d => numeralValue hex (acc * (if hex then 16 else 10) + d) s
    | none => none

/-- "Numbers are decimal unless written `0x..`" (R109); what does not begin with a digit is a word. That only a lower-case `x`
makes the prefix, so that `0X..` is no number, that `0x` needs a digit after it, and that digits followed by anything else
are no number, is the model's choice (DESIGN CHOICE, log 27). -/
def wordToken (w : List Byte) : Except Reject Token :=
  match w with
  | [] => .error .empty
  | b :: s =>
    if isDigit b then
      match (match s with
        | x :: d :: ds => if b = 0x30 ∧ x = 0x78 then numeralValue true 0 (d :: ds) else numeralValue false 0 w
        | _ => numeralValue false 0 w) with
      | some n => .ok (.num n)
      | none => .error .badNumber
    else .ok (.word w)

/-- What a byte between tokens does: the token it is, if any, and the mode after it. -/
def betweenByte (b : Byte) : Except Reject (List Token × LexMode) :=
  if isWordByte b then .ok ([], .inWord [b])
  else if b = 0x20 then .ok ([], .between)
  else if b = 0x2C then .ok ([.comma], .between)
  else if b = 0x5B then .ok ([.openBracket], .between)
  else if b = 0x5D then .ok ([.closeBracket], .between)
  else if b = 0x22 then .ok ([], .inString [])
  else .error (.strayByte b)

/-- What one byte does in each mode: the tokens it completes and the mode after it. -/
def lexByte (m : LexMode) (b : Byte) : Except Reject (List Token × LexMode) :=
  match m with
  | .between => betweenByte b
  | .inString soFar => if b = 0x22 then .ok ([.str soFar], .between) else .ok ([], .inString (soFar ++ [b]))
  | .inWord soFar =>
    if isWordByte b then .ok ([], .inWord (soFar ++ [b]))
    else match wordToken soFar, betweenByte b with
      | .ok t, .ok (ts, m') => .ok (t :: ts, m')
      | .error r, _ => .error r
      | _, .error r => .error r

/-- The tokens of a spelling. Any number of spaces may stand before, between and after tokens, none where the tokens stay
apart without one (DESIGN CHOICE, log 15). -/
def lex (m : LexMode) : List Byte → Except Reject (List Token)
  | [] =>
    match m with
    | .between => .ok []
    | .inString _ => .error .openString
    | .inWord soFar => match wordToken soFar with
      | .ok t => .ok [t]
      | .error r => .error r
  | b :: s =>
    match lexByte m b with
    | .error r => .error r
    | .ok (ts, m') => match lex m' s with
      | .ok us => .ok (ts ++ us)
      | .error r => .error r

/-- A byte operand (R9). -/
def byteOperand (n : Nat) : Except Reject Byte := if n < 256 then .ok (BitVec.ofNat 8 n) else .error .outOfRange

/-- A position operand (R10). -/
def posOperand (n : Nat) : Except Reject Pos := if n < 65536 then .ok (BitVec.ofNat 16 n) else .error .outOfRange

/-- The rest of a byte list after its bracket, `b0, b1, ...]`, and the tokens after it. -/
def listOperand : List Token → Except Reject (List Byte × List Token)
  | .num n :: .closeBracket :: ts => match byteOperand n with
    | .ok b => .ok ([b], ts)
    | .error r => .error r
  | .num n :: .comma :: ts => match byteOperand n, listOperand ts with
    | .ok b, .ok (bs, us) => .ok (b :: bs, us)
    | .error r, _ => .error r
    | _, .error r => .error r
  | _ => .error .badOperands

def noOperand (i : Instr) : List Token → Except Reject Instr
  | [] => .ok i
  | _ => .error .badOperands

def natOperand (f : Nat → Instr) : List Token → Except Reject Instr
  | [.num n] => .ok (f n)
  | _ => .error .badOperands

def opcodeOperand (f : Byte → Instr) : List Token → Except Reject Instr
  | [.num n] => match byteOperand n with
    | .ok b => .ok (f b)
    | .error r => .error r
  | _ => .error .badOperands

/-- "`on` is `true` or `false`" (R109). -/
def boolOperand (f : Bool → Instr) : List Token → Except Reject Instr
  | [.word w] =>
    if w = ascii ['t', 'r', 'u', 'e'] then .ok (f true)
    else if w = ascii ['f', 'a', 'l', 's', 'e'] then .ok (f false)
    else .error .badOperands
  | _ => .error .badOperands

def positionOperands (f : Pos → Pos → Pos → Instr) : List Token → Except Reject Instr
  | [.num a, .comma, .num b, .comma, .num c] => match posOperand a, posOperand b, posOperand c with
    | .ok p1, .ok p2, .ok p3 => .ok (f p1 p2 p3)
    | _, _, _ => .error .outOfRange
  | _ => .error .badOperands

def objectOperands (f : List Byte → Byte → Instr) : List Token → Except Reject Instr
  | [.openBracket, .closeBracket, .comma, .num e] => match byteOperand e with
    | .ok b => .ok (f [] b)
    | .error r => .error r
  | .openBracket :: ts => match listOperand ts with
    | .ok (bs, [.comma, .num e]) => match byteOperand e with
      | .ok b => .ok (f bs b)
      | .error r => .error r
    | .ok _ => .error .badOperands
    | .error r => .error r
  | _ => .error .badOperands

def connectOperands (f : List Byte → Nat → Instr) : List Token → Except Reject Instr
  | [.str a, .comma, .num n] => .ok (f a n)
  | _ => .error .badOperands

/-- The mnemonics of R109 (letter for letter the table's), and "reset", which is refused by name (R108). -/
inductive Mnemonic where
  | stuffCmd | stuffObj
  | eStop | eHomeAll | eMread | eAtcOff | eAtcOn | eAtcStep | ePushOn | ePushOff | eStubHome | eSetPos
  | rdConfirm | rdObject | rdMotor
  | connect | close | setMotorPositions | readMotorPositions | allStubsHome | hardStopMotors | autotuning
  | singleAutotuningStep | selectedStubHome | sendTunePositionsOnOff
  | reset
  deriving DecidableEq, Repr

/-- How each mnemonic is spelled (R109). -/
def mnemonicText : Mnemonic → List Byte
  | .stuffCmd => ascii ['S', 'T', 'U', 'F', 'F', '_', 'C', 'M', 'D']
  | .stuffObj => ascii ['S', 'T', 'U', 'F', 'F', '_', 'O', 'B', 'J']
  | .eStop => ascii ['E', '_', 'S', 'T', 'O', 'P']
  | .eHomeAll => ascii ['E', '_', 'H', 'O', 'M', 'E', '_', 'A', 'L', 'L']
  | .eMread => ascii ['E', '_', 'M', 'R', 'E', 'A', 'D']
  | .eAtcOff => ascii ['E', '_', 'A', 'T', 'C', '_', 'O', 'F', 'F']
  | .eAtcOn => ascii ['E', '_', 'A', 'T', 'C', '_', 'O', 'N']
  | .eAtcStep => ascii ['E', '_', 'A', 'T', 'C', '_', 'S', 'T', 'E', 'P']
  | .ePushOn => ascii ['E', '_', 'P', 'U', 'S', 'H', '_', 'O', 'N']
  | .ePushOff => ascii ['E', '_', 'P', 'U', 'S', 'H', '_', 'O', 'F', 'F']
  | .eStubHome => ascii ['E', '_', 'S', 'T', 'U', 'B', '_', 'H', 'O', 'M', 'E']
  | .eSetPos => ascii ['E', '_', 'S', 'E', 'T', '_', 'P', 'O', 'S']
  | .rdConfirm => ascii ['R', 'D', '_', 'C', 'O', 'N', 'F', 'I', 'R', 'M']
  | .rdObject => ascii ['R', 'D', '_', 'O', 'B', 'J', 'E', 'C', 'T']
  | .rdMotor => ascii ['R', 'D', '_', 'M', 'O', 'T', 'O', 'R']
  | .connect => ascii ['c', 'o', 'n', 'n', 'e', 'c', 't']
  | .close => ascii ['c', 'l', 'o', 's', 'e']
  | .setMotorPositions =>
    ascii ['s', 'e', 't', 'M', 'o', 't', 'o', 'r', 'P', 'o', 's', 'i', 't', 'i', 'o', 'n', 's']
  | .readMotorPositions =>
    ascii ['r', 'e', 'a', 'd', 'M', 'o', 't', 'o', 'r', 'P', 'o', 's', 'i', 't', 'i', 'o', 'n', 's']
  | .allStubsHome => ascii ['a', 'l', 'l', 'S', 't', 'u', 'b', 's', 'H', 'o', 'm', 'e']
  | .hardStopMotors => ascii ['h', 'a', 'r', 'd', 'S', 't', 'o', 'p', 'M', 'o', 't', 'o', 'r', 's']
  | .autotuning => ascii ['a', 'u', 't', 'o', 't', 'u', 'n', 'i', 'n', 'g']
  | .singleAutotuningStep =>
    ascii ['s', 'i', 'n', 'g', 'l', 'e', 'A', 'u', 't', 'o', 't', 'u', 'n', 'i', 'n', 'g', 'S', 't', 'e', 'p']
  | .selectedStubHome =>
    ascii ['s', 'e', 'l', 'e', 'c', 't', 'e', 'd', 'S', 't', 'u', 'b', 'H', 'o', 'm', 'e']
  | .sendTunePositionsOnOff =>
    ascii ['s', 'e', 'n', 'd', 'T', 'u', 'n', 'e', 'P', 'o', 's', 'i', 't', 'i', 'o', 'n', 's', 'O', 'n', 'O', 'f', 'f']
  | .reset => ascii ['r', 'e', 's', 'e', 't']

/-- Every mnemonic, in R109's order. -/
def mnemonics : List Mnemonic :=
  [.stuffCmd, .stuffObj, .eStop, .eHomeAll, .eMread, .eAtcOff, .eAtcOn, .eAtcStep, .ePushOn, .ePushOff, .eStubHome,
    .eSetPos, .rdConfirm, .rdObject, .rdMotor] ++
  [.connect, .close, .setMotorPositions, .readMotorPositions, .allStubsHome, .hardStopMotors, .autotuning,
    .singleAutotuningStep, .selectedStubHome, .sendTunePositionsOnOff, .reset]

/-- The mnemonic a word spells. -/
def mnemonicOf (w : List Byte) : Option Mnemonic := mnemonics.find? fun m => mnemonicText m == w

/-- A mnemonic with its operands (R109's table). -/
def operation (m : Mnemonic) (args : List Token) : Except Reject Instr :=
  match m with
  | .stuffCmd => opcodeOperand .stuffCmd args
  | .stuffObj => objectOperands .stuffObj args
  | .eStop => noOperand .eStop args
  | .eHomeAll => noOperand .eHomeAll args
  | .eMread => noOperand .eMread args
  | .eAtcOff => noOperand .eAtcOff args
  | .eAtcOn => noOperand .eAtcOn args
  | .eAtcStep => noOperand .eAtcStep args
  | .ePushOn => noOperand .ePushOn args
  | .ePushOff => noOperand .ePushOff args
  | .eStubHome => natOperand .eStubHome args
  | .eSetPos => positionOperands .eSetPos args
  | .rdConfirm => noOperand .rdConfirm args
  | .rdObject => noOperand .rdObject args
  | .rdMotor => noOperand .rdMotor args
  | .connect => connectOperands .connect args
  | .close => noOperand .close args
  | .setMotorPositions => positionOperands .setMotorPositions args
  | .readMotorPositions => noOperand .readMotorPositions args
  | .allStubsHome => noOperand .allStubsHome args
  | .hardStopMotors => noOperand .hardStopMotors args
  | .autotuning => boolOperand .autotuning args
  | .singleAutotuningStep => noOperand .singleAutotuningStep args
  | .selectedStubHome => natOperand .selectedStubHome args
  | .sendTunePositionsOnOff => boolOperand .sendTunePositionsOnOff args
  | .reset => .error .resetHasNoEncoding

/-- The operation a token sequence spells. -/
def ofTokens : List Token → Except Reject Instr
  | [] => .error .empty
  | .word w :: args => match mnemonicOf w with
    | some m => operation m args
    | none => .error .unknownMnemonic
  | _ => .error .unknownMnemonic

/-- The operation a spelling stands for (R109). -/
def decodeOperation (s : List Byte) : Except Reject Instr :=
  match lex .between s with
  | .ok ts => ofTokens ts
  | .error r => .error r

/-! ## RX control pairs -/

/-- The row of the pair `[128, c]` (R95; RX_OTHER_PAIR "applies only when no other RX_ row matches"). -/
def rxPairOf (c : Byte) : Instr :=
  if c = MARKER then .rxEscaped128
  else if c = DATA_BEGIN then .rxDataBegin
  else if c = MDO_END then .rxMdoEnd
  else if c = CONFIRM then .rxConfirm
  else .rxOtherPair c

/-- Any bytes: a 128 opens a control pair (R104), everything else spells an operation (R109). -/
def decode : List Byte → Except Reject Instr
  | [] => .error .empty
  | [b] => if b = MARKER then .error .notOnePair else decodeOperation [b]
  | [b, c] => if b = MARKER then .ok (rxPairOf c) else decodeOperation [b, c]
  | b :: c :: d :: s => if b = MARKER then .error .notOnePair else decodeOperation (b :: c :: d :: s)

/-! ## TX frames -/

/-- A scanned object with one more payload byte in front. -/
def prependPayload (b : Byte) : Option (List Byte × Byte × List Byte) → Option (List Byte × Byte × List Byte)
  | none => none
  | some (payload, endCode, rest) => some (b :: payload, endCode, rest)

/-- What stands after `[128, 28]`: the payload with its escaped pairs collapsed, the end code of the first control pair
(R103, R129), and the bytes after the frame. -/
def scanObject : List Byte → Option (List Byte × Byte × List Byte)
  | [] => none
  | [_] => none
  | b :: c :: s =>
    if b = MARKER then
      if c = MARKER then prependPayload MARKER (scanObject s) else some ([], c, s)
    else prependPayload b (scanObject (c :: s))

/-- A simple command (R97): the three opcodes the encoder sends, else the primitive. -/
def simpleCommand (op : Byte) : Instr :=
  if op = OP_MOTOR_STOP then .eStop
  else if op = OP_MOTOR_INIT then .eHomeAll
  else if op = OP_MOTOR_READ then .eMread
  else .stuffCmd op

/-- The digits at the front of `s` as a number, and the bytes after them. -/
def readDigits (acc : Nat) : List Byte → Nat × List Byte
  | [] => (acc, [])
  | b :: s => if isDigit b then readDigits (acc * 10 + (b.toNat - 0x30)) s else (acc, b :: s)

/-- The positions of a set-positions payload (R100): read as numbers, and accepted only if they spell that very payload. -/
def setPosOperands (payload : List Byte) : Option (Pos × Pos × Pos) :=
  let (n1, r1) := readDigits 0 (payload.drop 4)
  let (n2, r2) := readDigits 0 (r1.drop 1)
  let (n3, _) := readDigits 0 (r2.drop 1)
  let p1 : Pos := BitVec.ofNat 16 n1
  let p2 : Pos := BitVec.ofNat 16 n2
  let p3 : Pos := BitVec.ofNat 16 n3
  if setPosPayload p1 p2 p3 = payload then some (p1, p2, p3) else none

/-- The stub id of a stub-home payload, 0 to 3 as the table's row has it (0 is refused when it runs). -/
def stubHomeOperand (payload : List Byte) : Option Nat := [0, 1, 2, 3].find? fun n => stubHomePayload n == payload

/-- A data-object command (R97): what the encoder sends with this payload and end code, else the primitive. -/
def objectCommand (p : Params) (payload : List Byte) (endCode : Byte) : Instr :=
  if endCode = GENERIC_END ∧ payload = atcPayload p.polarity true then .eAtcOn
  else if endCode = GENERIC_END ∧ payload = atcPayload p.polarity false then .eAtcOff
  else if endCode = GENERIC_END ∧ payload = ascii ['A', 'T', 'C', ' ', 'S'] then .eAtcStep
  else if endCode = GENERIC_END ∧ payload = ascii ['A', 'T', 'C', ' ', 'T'] then .ePushOn
  else if endCode = GENERIC_END ∧ payload = ascii ['A', 'T', 'C', ' ', 'F'] then .ePushOff
  else match (if endCode = GENERIC_END then stubHomeOperand payload else none) with
    | some n => .eStubHome n
    | none => match setPosOperands payload with
      | some (p1, p2, p3) => if endCode = p.motorSet then .eSetPos p1 p2 p3 else .stuffObj payload endCode
      | none => .stuffObj payload endCode

/-- The command a TX frame is, and the bytes after it (R103). -/
def decodeFrame (p : Params) : List Byte → Except Reject (Instr × List Byte)
  | [] => .error .empty
  | [b] => if b = MARKER then .error .notOnePair else .error .noMarker
  | b :: c :: s =>
    if b = MARKER then
      if c = MARKER then .error .escapedLiteral
      else if c = DATA_BEGIN then
        match scanObject s with
        | some (payload, endCode, rest) => .ok (objectCommand p payload endCode, rest)
        | none => .error .openObject
      else .ok (simpleCommand c, s)
    else .error .noMarker

/-! ## The rows of spec/opcode_table.json -/

/-- The `k` bytes of a table pattern in wire order: byte 0 is the most significant (R90: "byte 0 in bits `[15:8]` and byte
1 in bits `[7:0]`"). -/
def tableBytes : Nat → Nat → List Byte
  | 0, _ => []
  | k + 1, w => BitVec.ofNat 8 (w / 256 ^ k) :: tableBytes k w

/-- The row a pattern stands for. The table names `[128, c]` with `c` one of 128, 28, 16, 4 for the receive side; every
other pattern is read as a whole TX frame under the default parameters. -/
def decodeTableWord (nbits w : Nat) : Option Instr :=
  match tableBytes (nbits / 8) w with
  | [b, c] =>
    if b = MARKER ∧ (c = MARKER ∨ c = DATA_BEGIN ∨ c = MDO_END ∨ c = CONFIRM) then some (rxPairOf c)
    else match decodeFrame Config.params [b, c] with
      | .ok (i, []) => some i
      | .ok _ => none
      | .error _ => none
  | bytes => match decodeFrame Config.params bytes with
    | .ok (i, []) => some i
    | .ok _ => none
    | .error _ => none

/-! ## Encoding -/

/-- The mnemonic an operation is spelled with; an RX pair has none. -/
def instrMnemonic : Instr → Option Mnemonic
  | .stuffCmd _ => some .stuffCmd
  | .stuffObj _ _ => some .stuffObj
  | .eStop => some .eStop
  | .eHomeAll => some .eHomeAll
  | .eMread => some .eMread
  | .eAtcOn => some .eAtcOn
  | .eAtcOff => some .eAtcOff
  | .eAtcStep => some .eAtcStep
  | .eStubHome _ => some .eStubHome
  | .ePushOn => some .ePushOn
  | .ePushOff => some .ePushOff
  | .eSetPos _ _ _ => some .eSetPos
  | .rxEscaped128 => none
  | .rxDataBegin => none
  | .rxMdoEnd => none
  | .rxConfirm => none
  | .rxOtherPair _ => none
  | .rdConfirm => some .rdConfirm
  | .rdObject => some .rdObject
  | .rdMotor => some .rdMotor
  | .connect _ _ => some .connect
  | .close => some .close
  | .setMotorPositions _ _ _ => some .setMotorPositions
  | .readMotorPositions => some .readMotorPositions
  | .allStubsHome => some .allStubsHome
  | .hardStopMotors => some .hardStopMotors
  | .autotuning _ => some .autotuning
  | .singleAutotuningStep => some .singleAutotuningStep
  | .selectedStubHome _ => some .selectedStubHome
  | .sendTunePositionsOnOff _ => some .sendTunePositionsOnOff

/-- The tokens of a byte list after its bracket. -/
def listTokens : List Byte → List Token
  | [] => [.closeBracket]
  | [b] => [.num b.toNat, .closeBracket]
  | b :: c :: s => .num b.toNat :: .comma :: listTokens (c :: s)

def positionTokens (p1 p2 p3 : Pos) : List Token :=
  [.num p1.toNat, .comma, .num p2.toNat, .comma, .num p3.toNat]

def boolToken : Bool → Token
  | true => .word (ascii ['t', 'r', 'u', 'e'])
  | false => .word (ascii ['f', 'a', 'l', 's', 'e'])

/-- An operation's operands as tokens (R109). -/
def operandTokens : Instr → List Token
  | .stuffCmd op => [.num op.toNat]
  | .stuffObj payload e => .openBracket :: listTokens payload ++ [.comma, .num e.toNat]
  | .eStubHome n => [.num n]
  | .eSetPos p1 p2 p3 => positionTokens p1 p2 p3
  | .connect a n => [.str a, .comma, .num n]
  | .setMotorPositions p1 p2 p3 => positionTokens p1 p2 p3
  | .autotuning on => [boolToken on]
  | .selectedStubHome n => [.num n]
  | .sendTunePositionsOnOff on => [boolToken on]
  | .eStop | .eHomeAll | .eMread | .eAtcOn | .eAtcOff | .eAtcStep | .ePushOn | .ePushOff
  | .rxEscaped128 | .rxDataBegin | .rxMdoEnd | .rxConfirm | .rxOtherPair _
  | .rdConfirm | .rdObject | .rdMotor | .close | .readMotorPositions | .allStubsHome
  | .hardStopMotors | .singleAutotuningStep => []

/-- How one token is written; numbers in decimal. -/
def tokenText : Token → List Byte
  | .word w => w
  | .num n => decNat n
  | .str s => [0x22] ++ s ++ [0x22]
  | .comma => [0x2C]
  | .openBracket => [0x5B]
  | .closeBracket => [0x5D]

/-- A space follows a mnemonic and a comma, as R109 writes them. -/
def spaceAfter : Token → List Byte
  | .word _ => [0x20]
  | .comma => [0x20]
  | .num _ => []
  | .str _ => []
  | .openBracket => []
  | .closeBracket => []

/-- A token sequence written out. -/
def render : List Token → List Byte
  | [] => []
  | [t] => tokenText t
  | t :: u :: ts => tokenText t ++ spaceAfter t ++ render (u :: ts)

/-- The second byte of an RX pair (R95). -/
def rxPairCode : Instr → Option Byte
  | .rxEscaped128 => some MARKER
  | .rxDataBegin => some DATA_BEGIN
  | .rxMdoEnd => some MDO_END
  | .rxConfirm => some CONFIRM
  | .rxOtherPair c => some c
  | .stuffCmd _ | .stuffObj _ _ | .eStop | .eHomeAll | .eMread | .eAtcOn | .eAtcOff | .eAtcStep | .eStubHome _
  | .ePushOn | .ePushOff | .eSetPos _ _ _ | .rdConfirm | .rdObject | .rdMotor | .connect _ _ | .close
  | .setMotorPositions _ _ _ | .readMotorPositions | .allStubsHome | .hardStopMotors | .autotuning _
  | .singleAutotuningStep | .selectedStubHome _ | .sendTunePositionsOnOff _ => none

/-- The bytes of an instruction: an operation's spelling (R109), a pair's two wire bytes (R95). -/
def encode (i : Instr) : List Byte :=
  match rxPairCode i, instrMnemonic i with
  | some c, _ => [MARKER, c]
  | none, some m => render (.word (mnemonicText m) :: operandTokens i)
  | none, none => []

/-- The TX frame of a primitive or an encoder command under the parameters `p` (R141 to R150); `none` for the rows that
have no frame of their own. -/
def frameOf (p : Params) : Instr → Option (Except ErrCode (List Byte))
  | .stuffCmd op => some (stuffCmdFrame op)
  | .stuffObj payload e => some (stuffObjFrame payload e)
  | .eStop => some frameStop
  | .eHomeAll => some frameHomeAll
  | .eMread => some frameMread
  | .eAtcOn => some (frameAtcOn p)
  | .eAtcOff => some (frameAtcOff p)
  | .eAtcStep => some frameAtcStep
  | .eStubHome n => some (frameStubHome n)
  | .ePushOn => some framePushOn
  | .ePushOff => some framePushOff
  | .eSetPos p1 p2 p3 => some (frameSetPos p p1 p2 p3)
  | .rxEscaped128 | .rxDataBegin | .rxMdoEnd | .rxConfirm | .rxOtherPair _
  | .rdConfirm | .rdObject | .rdMotor | .connect _ _ | .close | .setMotorPositions _ _ _ | .readMotorPositions
  | .allStubsHome | .hardStopMotors | .autotuning _ | .singleAutotuningStep | .selectedStubHome _
  | .sendTunePositionsOnOff _ => none

end Sys2Proof
end

