-- ==== Sys2Proof/Machine/State.lean ====
section
/-! DEFINITION. The state of the block (10_state.md), the environment's and the host's side of its channels as plain data,
the state after reset (R280), and the two reasons a step can stop. -/

namespace Sys2Proof.Machine

/-- The parser's states (R42). Their codes are `stCode`. -/
inductive PState where
  | idle
  | sync
  | classify
  | payload
  | pmark
  deriving DecidableEq, Repr

/-- The kinds of read (R43, R171). -/
inductive ReadKind where
  | confirm
  | object
  | motor
  deriving DecidableEq, Repr

/-- The connection state (R51). -/
inductive Conn where
  | disconnected
  | connected
  deriving DecidableEq, Repr

/-- The result register `res` (R46): the tag with the fields it makes valid (R47 to R49). -/
inductive Result where
  | none
  | okConfirm
  | okObject (payload : List Byte)
  | okMotor (hst : Byte) (m1 m2 m3 : Pos) (verified : Bool)
  | ok
  | err (code : ErrCode)
  deriving DecidableEq, Repr

/-- What a pure function of files 40 and 41 returned on the result port (R7, header of 40_frame_codec.md). -/
inductive Ret where
  | nothing
  | frame (bytes : List Byte)
  | error (code : ErrCode)
  deriving DecidableEq, Repr

/-- The transactions that wait for a read (R223 to R229), each once its frame is written. -/
inductive Txn where
  | setPositions
  | readPositions
  | homeAll
  | autotuning (on : Bool)
  | singleStep
  | stubHome
  | push
  deriving DecidableEq, Repr

/-- A call the block made to the Transport's connection (R70, R221, R222). -/
inductive EnvCall where
  | openLink (address : List Byte) (baud : Nat)
  | closeLink
  deriving DecidableEq, Repr

/-- A request on the command port. With `waits` the host keeps its duty of R233 and issues it only once no operation is in
progress; without, it arrives at once. -/
structure Request where
  instr : Instr
  waits : Bool
  deriving DecidableEq, Repr

/-- Everything the spec gives the machine, and the model's own fields, which are said to be so. -/
structure State where
  /-- The instance's parameters (R39). -/
  params : Params
  /-- Parser state (R42). -/
  st : PState
  /-- Kind of the current read (R43). -/
  kind : ReadKind
  /-- Payload buffer (R44, R73c). -/
  buf : List Byte
  /-- Resync-event counter (R45). -/
  rcnt : Nat
  /-- Result register (R46). -/
  res : Result
  /-- Connection state (R51). -/
  conn : Conn
  /-- Continuous autotuning has been seen switched off (R52). -/
  continuousOff : Bool
  /-- A transaction is running (R53). -/
  busy : Bool
  /-- The running transaction, between its START and its end (R220's template; the model's own field). -/
  cur : Option Txn
  /-- Every byte handed to the environment so far (R71). -/
  tx : List Byte
  /-- The RX events that `RxRead` returns next, oldest first: its bytes are the RX backlog (R59, R72). After the last one
  the events are free values. -/
  rx : List RxEvent
  /-- The answers the environment gives to the next `TxWrite`s; after the last one free values (the model's own field). -/
  writeDraws : List WriteDraw
  /-- The answers to the next `environment.open`s; after the last one free values (the model's own field). -/
  openDraws : List Bool
  /-- How many free values have been drawn (the model's own field). -/
  draws : Nat
  /-- The calls made to the environment's connection, oldest first (the model's own field). -/
  calls : List EnvCall
  /-- The result port of the pure functions (the model's own field). -/
  ret : Ret
  /-- The command port: what the host issues next (R7; the model's own field). -/
  port : List Request
  deriving DecidableEq, Repr

/-- Reasons to stop the machine. -/
inductive Fault where
  /-- `complete_object()` in a confirmation read, a case the spec says "cannot arise" (R189) and gives no effect. Raised by
  the parser's completion. Safe: the model stops where nothing is specified; the invariant rules the case out. -/
  | confirmReadInObject
  deriving DecidableEq, Repr

/-- Reasons to give an instruction no meaning in a state. -/
inductive Refusal where
  /-- An instruction whose meaning is not written. Raised by exec's arms. Safe. -/
  | notModelled (mnemonic : String)
  /-- A request while `busy = 1`: "The block takes no step for it and writes nothing; it is not an error code" (R258).
  Raised by every operation of R109. Safe. -/
  | busy
  /-- A request while a read that was started on its own is active: START's precondition is `st = IDLE` (R174), and the
  block "takes one host operation at a time" (R262). Raised by every operation of R109. Safe. -/
  | readActive
  /-- A request that is no instruction: RX_OTHER_PAIR with one of the four codes that have rows of their own. Raised when
  the port's head is taken. Safe. -/
  | illFormed
  deriving DecidableEq, Repr

/-- A new instance with the parameters `p` in an environment that already holds the bytes `backlog` (R280, R281): "*Reset*
is the creation of a block instance". `kind` is unspecified (R43, I10) and takes K_CONFIRM here (DESIGN CHOICE, log 8); the
model's own fields start empty (logs 1, 4, 5, 6, 9, 17, 18). -/
def State.instantiate (p : Params) (backlog : List Byte) : State where
  params := p
  st := .idle
  kind := .confirm
  buf := []
  rcnt := 0
  res := .none
  conn := .disconnected
  continuousOff := false
  busy := false
  cur := none
  tx := []
  rx := backlog.map .byte
  writeDraws := []
  openDraws := []
  draws := 0
  calls := []
  ret := .nothing
  port := []

/-- The machine right after reset (R280), with the parameters of `Config`, of which the OPEN ones have no value, and with a
backlog that is a free value (R281, log 3). -/
def State.reset : State := State.instantiate Config.params Config.resetBacklog

end Sys2Proof.Machine
end

