-- ==== Sys2Proof/Machine/Ops.lean ====
section
/-! DEFINITION. The named operations every meaning is written with: the three channels to the environment (R70 to R72), the
parser's registers (R174 to R176, R184), the end of an operation and `raise` (R220, R256). There is no return from an
error to go with `raise` (R260). -/

namespace Sys2Proof.Machine

/-- Shorthand for the host's three outcomes. -/
abbrev Step := Host.Outcome State Fault Refusal

/-- The second of two steps, where the first answers a next state. -/
def andThen (o : Step) (f : State → Step) : Step :=
  match o with
  | .next s => f s
  | .fault r => .fault r
  | .refused r => .refused r

/-! ## Numbers the spec gives its names -/

/-- R250. -/
def errNumber : ErrCode → Nat
  | .notConnected => 1
  | .transportError => 2
  | .timeout => 3
  | .invalidArgument => 4
  | .protocolDesync => 5

/-- R42. -/
def stCode : PState → Nat
  | .idle => 0
  | .sync => 1
  | .classify => 2
  | .payload => 3
  | .pmark => 4

/-- R43. -/
def kindCode : ReadKind → Nat
  | .confirm => 0
  | .object => 1
  | .motor => 2

/-- R51. -/
def connCode : Conn → Nat
  | .disconnected => 0
  | .connected => 1

/-! ## The environment -/

/-- `RxRead()` (R22, R72): the next RX event, which is thereby consumed; past the listed ones a free value. -/
def rxRead (s : State) : RxEvent × State :=
  match s.rx with
  | e :: es => (e, { s with rx := es })
  | [] => (Config.freeRx s.draws, { s with draws := s.draws + 1 })

/-- The environment's answer to a write (R71); past the listed ones a free value. -/
def drawWrite (s : State) : WriteDraw × State :=
  match s.writeDraws with
  | d :: ds => (d, { s with writeDraws := ds })
  | [] => (Config.freeWrite s.draws, { s with draws := s.draws + 1 })

/-- The environment's answer to an open (R221, I14); past the listed ones a free value. -/
def drawOpen (s : State) : Bool × State :=
  match s.openDraws with
  | d :: ds => (d, { s with openDraws := ds })
  | [] => (Config.freeOpen s.draws, { s with draws := s.draws + 1 })

/-- How many bytes of a frame of `len` bytes reach the wire, and whether the write succeeded. -/
def writtenBytes (d : WriteDraw) (frame : List Byte) : List Byte :=
  match d with
  | .ok => frame
  | .fail sent => frame.take sent

/-- `TxWrite(frame)` (R22, R71, R79): a success appends the whole frame, a failure any prefix of it. -/
def txWrite (frame : List Byte) (s : State) : Bool × State :=
  let drawn := drawWrite s
  (drawn.1 == .ok, { drawn.2 with tx := drawn.2.tx ++ writtenBytes drawn.1 frame })

/-- `environment.open(address, baud)` (R70, R221). -/
def openLink (address : List Byte) (baud : Nat) (s : State) : Bool × State :=
  let drawn := drawOpen s
  (drawn.1, { drawn.2 with calls := drawn.2.calls ++ [.openLink address baud] })

/-- "if conn == Connected: environment.close(); conn <- Disconnected" (R221, R222); the close succeeds (I14). -/
def closeLink (s : State) : State :=
  if s.conn = .connected then { s with conn := .disconnected, calls := s.calls ++ [.closeLink] } else s

/-! ## The parser's registers -/

/-- `START(k)` (R174). Its precondition `st = IDLE` is checked by `whenIdle`. -/
def startRead (k : ReadKind) (s : State) : State := { s with kind := k, buf := [], rcnt := 0, st := .sync }

/-- `finish(r)` (R176). -/
def finish (r : Result) (s : State) : State := { s with res := r, st := .idle, buf := [] }

/-- "P_MAX_RESYNC != INF and rcnt > P_MAX_RESYNC" (R175). -/
def overResync (p : Params) (rcnt : Nat) : Bool :=
  match p.maxResync with
  | none => false
  | some m => decide (m < rcnt)

/-- `resync_event()` (R175), and what the calling arm does "if the read is still active" after it. -/
def resyncEvent (stillActive : State → State) (s : State) : State :=
  let t := { s with rcnt := s.rcnt + 1 }
  if overResync t.params t.rcnt then finish (.err .protocolDesync) t else stillActive t

/-- `append(b)` (R184), and what the calling arm does "if the read is still active" after it. -/
def appendByte (b : Byte) (stillActive : State → State) (s : State) : State :=
  if s.buf.length = s.params.maxPayload then finish (.err .protocolDesync) s
  else stillActive { s with buf := s.buf ++ [b] }

/-! ## Operations -/

/-- A request on the command port is taken only while no operation is in progress: refused while `busy = 1` (R53, R258),
and while a read started on its own runs (R174, R262, log 10). -/
def whenIdle (s : State) (f : State → Step) : Step :=
  if s.busy then .refused .busy else if s.st = .idle then f s else .refused .readActive

/-- "busy <- 1; res <- NONE", the first line of R220, R221 and R222. -/
def beginOp (s : State) : State := { s with busy := true, res := .none }

/-- `end(r)` (R220): "res <- r; busy <- 0; the operation is over". -/
def endOp (r : Result) (s : State) : State := { s with res := r, busy := false, cur := none }

/-- An active read ends with `st <- IDLE` and `buf <- []` (R176, R256). -/
def abortRead (s : State) : State := if s.st = .idle then s else { s with st := .idle, buf := [] }

/-- `raise E` (R256), the one way an operation takes an error: `res <- ERR(E)`, `busy <- 0`, an active read ended, nothing
else changed, and control to no handler. -/
def raise (e : ErrCode) (s : State) : State := endOp (.err e) (abortRead s)

/-- What a pure function returns goes to the result port, and no register changes (R123, R128, log 9). -/
def giveBack (r : Except ErrCode (List Byte)) (s : State) : State :=
  match r with
  | .ok frame => { s with ret := .frame frame }
  | .error e => { s with ret := .error e }

end Sys2Proof.Machine
end

