-- ==== Sys2Proof/Machine/Primitives.lean ====
section
/-! DEFINITION. The meanings of the codec primitives (R123, R124) and the encoder commands (R141 to R150) as operations of
their own: the frame or the error goes to the result port, and nothing is sent (R151: the sequencer sends). -/

namespace Sys2Proof.Machine

/-- R123. -/
def execStuffCmd (op : Byte) (s : State) : Step := whenIdle s fun t => .next (giveBack (stuffCmdFrame op) t)

/-- R124. -/
def execStuffObj (payload : List Byte) (endCode : Byte) (s : State) : Step :=
  whenIdle s fun t => .next (giveBack (stuffObjFrame payload endCode) t)

/-- R141. -/
def execEStop (s : State) : Step := whenIdle s fun t => .next (giveBack frameStop t)

/-- R142. -/
def execEHomeAll (s : State) : Step := whenIdle s fun t => .next (giveBack frameHomeAll t)

/-- R143. -/
def execEMread (s : State) : Step := whenIdle s fun t => .next (giveBack frameMread t)

/-- R144. -/
def execEAtcOn (s : State) : Step := whenIdle s fun t => .next (giveBack (frameAtcOn t.params) t)

/-- R145. -/
def execEAtcOff (s : State) : Step := whenIdle s fun t => .next (giveBack (frameAtcOff t.params) t)

/-- R146. -/
def execEAtcStep (s : State) : Step := whenIdle s fun t => .next (giveBack frameAtcStep t)

/-- R147. -/
def execEStubHome (n : Nat) (s : State) : Step := whenIdle s fun t => .next (giveBack (frameStubHome n) t)

/-- R148. -/
def execEPushOn (s : State) : Step := whenIdle s fun t => .next (giveBack framePushOn t)

/-- R149. -/
def execEPushOff (s : State) : Step := whenIdle s fun t => .next (giveBack framePushOff t)

/-- R150. -/
def execESetPos (p1 p2 p3 : Pos) (s : State) : Step :=
  whenIdle s fun t => .next (giveBack (frameSetPos t.params p1 p2 p3) t)

end Sys2Proof.Machine
end

