-- ==== Sys2Proof/Machine/Parser.lean ====
section
/-! DEFINITION. The Response State Machine: one transition per RX event (R173, R177 to R189) and the field extraction
(R191, R192). -/

namespace Sys2Proof.Machine

/-- `extract(buf)` (R191) as the result it gives; `none` for a payload under 7 bytes, which has none (R189). -/
def extract (buf : List Byte) : Option Result :=
  match buf with
  | hst :: m1lo :: m1hi :: m2lo :: m2hi :: m3lo :: m3hi :: _ =>
    some (.okMotor hst (LE16 m1lo m1hi) (LE16 m2lo m2hi) (LE16 m3lo m3hi) (shapeVerified buf))
  | _ => none

/-- The result of a completed motor read (R189): short payloads are a ProtocolDesync. -/
def motorResult (buf : List Byte) : Result :=
  match extract buf with
  | some r => r
  | none => .err .protocolDesync

/-- `complete_object()` (R189). -/
def completeObject (s : State) : Step :=
  match s.kind with
  | .object => .next (finish (.okObject s.buf) s)
  | .motor => .next (finish (motorResult s.buf) s)
  | .confirm => .fault .confirmReadInObject

/-- `SYNC` (R178). -/
def inSync (b : Byte) (s : State) : State := if b = MARKER then { s with st := .classify } else s

/-- `CLASSIFY` with a byte other than 128 in a confirmation read (R180). -/
def classifyConfirm (b : Byte) (s : State) : State :=
  if b = CONFIRM then finish .okConfirm s else { s with st := .sync }

/-- `CLASSIFY` with a byte other than 128 in an object read (R181). -/
def classifyObject (b : Byte) (s : State) : State :=
  if b = DATA_BEGIN then { s with buf := [], st := .payload }
  else resyncEvent (fun t => { t with st := .sync }) s

/-- `CLASSIFY` (R179 to R181). -/
def inClassify (b : Byte) (s : State) : State :=
  if b = MARKER then { s with st := .sync }
  else if s.kind = .confirm then classifyConfirm b s
  else classifyObject b s

/-- `PAYLOAD` (R182, R183). -/
def inPayload (b : Byte) (s : State) : State :=
  if b = MARKER then { s with st := .pmark } else appendByte b (fun t => t) s

/-- `PMARK` (R185 to R188). -/
def inPmark (b : Byte) (s : State) : Step :=
  if b = MARKER then .next (appendByte MARKER (fun t => { t with st := .payload }) s)
  else if b = MDO_END then completeObject s
  else if b = DATA_BEGIN then .next (resyncEvent (fun t => { t with buf := [], st := .payload }) s)
  else .next (resyncEvent (fun t => { t with buf := [], st := .sync }) s)

/-- One byte, by state (R173). While `st = IDLE` the parser takes no event, and `rxStep` and `feed` never offer it one. -/
def onByte (b : Byte) (s : State) : Step :=
  match s.st with
  | .idle => .next s
  | .sync => .next (inSync b s)
  | .classify => .next (inClassify b s)
  | .payload => .next (inPayload b s)
  | .pmark => inPmark b s

/-- One RX event in an active read (R173, R177). -/
def onEvent (e : RxEvent) (s : State) : Step :=
  match e with
  | .byte b => onByte b s
  | .timeout => .next (finish (.err .timeout) s)
  | .rxError => .next (finish (.err .transportError) s)

/-- The parser's step while a read is active: exactly one event is read and taken (R173). -/
def rxStep (s : State) : Step := onEvent (rxRead s).1 (rxRead s).2

/-- The listed events in order: the parser takes them while a read is active, and what it does not take is the backlog that
remains (R59, R173, R176). -/
def feed : List RxEvent → State → Step
  | [], s => .next { s with rx := [] }
  | e :: es, s => if s.st = .idle then .next { s with rx := e :: es } else andThen (onEvent e s) (feed es)

/-- The two bytes of a control pair arrive, behind every byte that arrived before them (R74, R82). While no read is active
they wait in the backlog (R59); in an active read the parser takes the older events and then the pair. -/
def feedPair (c : Byte) (s : State) : Step :=
  let events := s.rx ++ [.byte MARKER, .byte c]
  if s.st = .idle then .next { s with rx := events } else feed events s

end Sys2Proof.Machine
end

