-- ==== Sys2Proof/Machine/Reads.lean ====
section
/-! DEFINITION. The meanings of the RX control pairs (R95) and of the three reads as operations of their own (R193 to R195). -/

namespace Sys2Proof.Machine

/-- `[128, 128]`: inside an object a literal 128 (R185), outside one skipped (R179). -/
def execRxEscaped128 (s : State) : Step := feedPair MARKER s

/-- `[128, 28]`: opens an object (R181), restarts one (R186), skipped by a confirmation read (R180). -/
def execRxDataBegin (s : State) : Step := feedPair DATA_BEGIN s

/-- `[128, 16]`: ends an object (R188), a resync event outside one (R181), skipped by a confirmation read (R180). -/
def execRxMdoEnd (s : State) : Step := feedPair MDO_END s

/-- `[128, 4]`: ends a confirmation read (R180), a resync event in an object read (R181, R187). -/
def execRxConfirm (s : State) : Step := feedPair CONFIRM s

/-- `[128, c]`: a resync event in an object read (R181, R187), skipped by a confirmation read (R180). -/
def execRxOtherPair (c : Byte) (s : State) : Step := feedPair c s

/-- R193: the read starts, and the parser's steps run it. -/
def execRdConfirm (s : State) : Step := whenIdle s fun t => .next (startRead .confirm t)

/-- R194. -/
def execRdObject (s : State) : Step := whenIdle s fun t => .next (startRead .object t)

/-- R195. -/
def execRdMotor (s : State) : Step := whenIdle s fun t => .next (startRead .motor t)

end Sys2Proof.Machine
end

