-- ==== Sys2Proof/Machine/Transactions.lean ====
section
/-! DEFINITION. The Transaction Sequencer: the common template (R220), its end after the read, and the ten operations
(R221 to R230). -/

namespace Sys2Proof.Machine

/-- `kA`, the acknowledgement read kind (header of section 4 of 43_transactions.md, R13). -/
def ackRead (p : Params) : ReadKind :=
  match p.ack with
  | .confirm => .confirm
  | .object => .object

/-- The kind of a transaction's read (R110, R223 to R229). -/
def readOf (p : Params) : Txn → ReadKind
  | .setPositions => .object
  | .readPositions => .motor
  | .homeAll => .confirm
  | .autotuning _ => ackRead p
  | .singleStep => ackRead p
  | .stubHome => ackRead p
  | .push => ackRead p

/-- A completed read acknowledges with either tag (R226 to R229): "map(_, OK_CONFIRM) = OK and map(_, OK_OBJECT(p)) = OK". -/
def ackResult : Result → Result
  | .okConfirm => .ok
  | .okObject _ => .ok
  | .none => .none
  | .okMotor h m1 m2 m3 v => .okMotor h m1 m2 m3 v
  | .ok => .ok
  | .err e => .err e

/-- The op-specific result mapping (R220, R223 to R229); an error is surfaced unchanged. -/
def mapResult (t : Txn) (r : Result) : Result :=
  match t with
  | .readPositions => r
  | .setPositions => ackResult r
  | .homeAll => ackResult r
  | .autotuning _ => ackResult r
  | .singleStep => ackResult r
  | .stubHome => ackResult r
  | .push => ackResult r

/-- "on success (res = OK): if not on: continuousOff <- 1" (R226). -/
def onSuccess (t : Txn) (r : Result) (s : State) : State :=
  if t = .autotuning false ∧ r = .ok then { s with continuousOff := true } else s

/-- The template's last lines, once the transaction's read has ended (R220). -/
def endTxn (s : State) : State :=
  match s.cur with
  | some t => endOp (mapResult t s.res) (onSuccess t (mapResult t s.res) s)
  | none => endOp s.res s

/-- What follows the frame's write (R220): the read of the transaction `t`, or the end where the operation has no read. -/
def afterWrite (read : Option Txn) (s : State) : State :=
  match read with
  | some t => startRead (readOf s.params t) { s with cur := some t }
  | none => endOp .ok s

/-- `TxWrite(frame)` and what follows it (R220). -/
def writeAndRead (frame : List Byte) (read : Option Txn) (s : State) : State :=
  let written := txWrite frame s
  if written.1 then afterWrite read written.2 else raise .transportError written.2

/-- `TRANSACT` up to the start of the read (R220), in the template's order: the connection, the op's own check, the frame,
`pre_write`, the write. -/
def transact (argOk : Bool) (frame : Except ErrCode (List Byte)) (preWrite : State → State) (read : Option Txn)
    (s : State) : State :=
  let t := beginOp s
  if t.conn = .disconnected then raise .notConnected t
  else if argOk then
    match frame with
    | .ok bytes => writeAndRead bytes read (preWrite t)
    | .error e => raise e t
  else raise .invalidArgument t

/-- No `pre_write` step. -/
def noPreWrite (s : State) : State := s

/-- `connect address, baud` (R221). -/
def connectOp (address : List Byte) (baud : Nat) (s : State) : State :=
  let opened := openLink address baud (closeLink (beginOp s))
  if opened.1 then endOp .ok { opened.2 with conn := .connected, continuousOff := false }
  else raise .transportError opened.2

/-- `close` (R222). -/
def closeOp (s : State) : State := endOp .ok (closeLink (beginOp s))

/-- R221. -/
def execConnect (address : List Byte) (baud : Nat) (s : State) : Step :=
  whenIdle s fun t => .next (connectOp address baud t)

/-- R222. -/
def execClose (s : State) : Step := whenIdle s fun t => .next (closeOp t)

/-- R223: no check, `E_SET_POS`, a generic object read. -/
def execSetMotorPositions (p1 p2 p3 : Pos) (s : State) : Step :=
  whenIdle s fun t => .next (transact true (frameSetPos t.params p1 p2 p3) noPreWrite (some .setPositions) t)

/-- R224: `E_MREAD`, a motor read, the result kept whole. -/
def execReadMotorPositions (s : State) : Step :=
  whenIdle s fun t => .next (transact true frameMread noPreWrite (some .readPositions) t)

/-- R225: `E_HOME_ALL`, a confirmation read. -/
def execAllStubsHome (s : State) : Step :=
  whenIdle s fun t => .next (transact true frameHomeAll noPreWrite (some .homeAll) t)

/-- R230: `E_STOP`, no read. -/
def execHardStopMotors (s : State) : Step :=
  whenIdle s fun t => .next (transact true frameStop noPreWrite none t)

/-- "pre_write = if on: continuousOff <- 0" (R226). -/
def clearOff (on : Bool) (s : State) : State := if on then { s with continuousOff := false } else s

/-- R226. -/
def execAutotuning (on : Bool) (s : State) : Step :=
  whenIdle s fun t => .next (transact true (if on then frameAtcOn t.params else frameAtcOff t.params) (clearOff on)
    (some (.autotuning on)) t)

/-- R227: InvalidArgument unless continuous autotuning has been switched off. -/
def execSingleAutotuningStep (s : State) : Step :=
  whenIdle s fun t => .next (transact t.continuousOff frameAtcStep noPreWrite (some .singleStep) t)

/-- R228: InvalidArgument for a stub outside 1 to 3. -/
def execSelectedStubHome (n : Nat) (s : State) : Step :=
  whenIdle s fun t => .next (transact (isStub n) (frameStubHome n) noPreWrite (some .stubHome) t)

/-- R229. -/
def execSendTunePositionsOnOff (on : Bool) (s : State) : Step :=
  whenIdle s fun t => .next (transact true (if on then framePushOn else framePushOff) noPreWrite (some .push) t)

end Sys2Proof.Machine
end

