-- ==== Sys2Proof/Machine/Dispatch.lean ====
section
/-! DEFINITION. exec: one arm per constructor of Instr, each a direct call of that instruction's meaning. -/

namespace Sys2Proof.Machine

def exec (i : Instr) (s : State) : Host.Outcome State Fault Refusal :=
  match i with
  | .stuffCmd op => Sys2Proof.Machine.execStuffCmd op s
  | .stuffObj payload endCode => Sys2Proof.Machine.execStuffObj payload endCode s
  | .eStop => Sys2Proof.Machine.execEStop s
  | .eHomeAll => Sys2Proof.Machine.execEHomeAll s
  | .eMread => Sys2Proof.Machine.execEMread s
  | .eAtcOn => Sys2Proof.Machine.execEAtcOn s
  | .eAtcOff => Sys2Proof.Machine.execEAtcOff s
  | .eAtcStep => Sys2Proof.Machine.execEAtcStep s
  | .eStubHome n => Sys2Proof.Machine.execEStubHome n s
  | .ePushOn => Sys2Proof.Machine.execEPushOn s
  | .ePushOff => Sys2Proof.Machine.execEPushOff s
  | .eSetPos p1 p2 p3 => Sys2Proof.Machine.execESetPos p1 p2 p3 s
  | .rxEscaped128 => Sys2Proof.Machine.execRxEscaped128 s
  | .rxDataBegin => Sys2Proof.Machine.execRxDataBegin s
  | .rxMdoEnd => Sys2Proof.Machine.execRxMdoEnd s
  | .rxConfirm => Sys2Proof.Machine.execRxConfirm s
  | .rxOtherPair c => Sys2Proof.Machine.execRxOtherPair c s
  | .rdConfirm => Sys2Proof.Machine.execRdConfirm s
  | .rdObject => Sys2Proof.Machine.execRdObject s
  | .rdMotor => Sys2Proof.Machine.execRdMotor s
  | .connect address baud => Sys2Proof.Machine.execConnect address baud s
  | .close => Sys2Proof.Machine.execClose s
  | .setMotorPositions p1 p2 p3 => Sys2Proof.Machine.execSetMotorPositions p1 p2 p3 s
  | .readMotorPositions => Sys2Proof.Machine.execReadMotorPositions s
  | .allStubsHome => Sys2Proof.Machine.execAllStubsHome s
  | .hardStopMotors => Sys2Proof.Machine.execHardStopMotors s
  | .autotuning on => Sys2Proof.Machine.execAutotuning on s
  | .singleAutotuningStep => Sys2Proof.Machine.execSingleAutotuningStep s
  | .selectedStubHome n => Sys2Proof.Machine.execSelectedStubHome n s
  | .sendTunePositionsOnOff on => Sys2Proof.Machine.execSendTunePositionsOnOff on s

end Sys2Proof.Machine
end

