-- ==== Sys2Proof/Machine/Fetch.lean ====
section
/-! DEFINITION. What the next step is: a request taken from the command port, an RX event for the active read, the end of a
transaction, or waiting (R80, R82, R173, R282). -/

namespace Sys2Proof.Machine

/-- No operation is in progress: the block is ready for a request (R260, R268). -/
def ready (s : State) : Bool := !s.busy && decide (s.st = .idle)

/-- What a step finds at the command port. -/
inductive Fetched where
  /-- This instruction is taken, and this is the state with its request gone from the port. -/
  | run (i : Instr) (s : State)
  /-- The request is refused. -/
  | reject (r : Refusal)
  /-- No request arrives in this step. -/
  | waiting
  deriving DecidableEq, Repr

/-- The head of the port arrives if nothing is in progress, or if it does not wait (R233, R258). -/
def fetch (s : State) : Fetched :=
  match s.port with
  | [] => .waiting
  | r :: rest =>
    if ready s || !r.waits then
      if r.instr.wellFormed then .run r.instr { s with port := rest } else .reject .illFormed
    else .waiting

/-- A step with no request: an active read takes one event (R173), a transaction whose read has ended ends (R220), and an
idle block waits (R80, R282). -/
def background (s : State) : Step :=
  if s.st = .idle then .next (if s.busy then endTxn s else s) else rxStep s

end Sys2Proof.Machine
end

