-- ==== Sys2Proof/Machine/Step.lean ====
section
/-! DEFINITION. One step of the machine, and where an instruction is put for the next step to run it. -/

namespace Sys2Proof.Machine

/-- A request that arrives runs as exec says; otherwise the block goes on with what it is doing. -/
def step (s : State) : Host.Outcome State Fault Refusal :=
  match fetch s with
  | .run i t => exec i t
  | .reject r => .refused r
  | .waiting => background s

/-- The table's instruction at the head of the command port, arriving at once (log 1). -/
def State.withFetchWord (s : State) (nbits w : Nat) : State :=
  match Sys2Proof.decodeTableWord nbits w with
  | some i => { s with port := { instr := i, waits := false } :: s.port }
  | none => s

end Sys2Proof.Machine
end

