-- ==== Sys2Proof/Safety.lean ====
section
/-! DEFINITION. What claims are stated with: runs of several steps, when the block is ready, what the host's discipline
leaves out, and the invariant of every reachable state. -/

namespace Sys2Proof.Machine

/-- `n` steps of the machine. -/
def steps : Nat → State → Step
  | 0, s => .next s
  | n + 1, s => andThen (step s) (steps n)

/-- No request arrives while an operation is in progress: the host keeps its duty of R233. -/
def hostWaits (s : State) : Prop := ∀ r ∈ s.port, r.waits = true

/-- RX bytes as the events that deliver them. -/
def bytesIn (bs : List Byte) : List RxEvent := bs.map .byte

/-- Bytes before a confirmation that hold no `[128, 4]` in unit alignment (R92, R104, R180) and end on a unit's end. -/
def skippedByConfirm : List Byte → Bool
  | [] => true
  | [b] => b != MARKER
  | b :: c :: s => if b = MARKER then c != CONFIRM && skippedByConfirm s else skippedByConfirm (c :: s)

/-- The encoder command a transaction sends (R110). -/
def encoderCommandOf : Instr → Option Instr
  | .setMotorPositions p1 p2 p3 => some (.eSetPos p1 p2 p3)
  | .readMotorPositions => some .eMread
  | .allStubsHome => some .eHomeAll
  | .hardStopMotors => some .eStop
  | .autotuning true => some .eAtcOn
  | .autotuning false => some .eAtcOff
  | .singleAutotuningStep => some .eAtcStep
  | .selectedStubHome n => some (.eStubHome n)
  | .sendTunePositionsOnOff true => some .ePushOn
  | .sendTunePositionsOnOff false => some .ePushOff
  | .stuffCmd _ | .stuffObj _ _ | .eStop | .eHomeAll | .eMread | .eAtcOn | .eAtcOff | .eAtcStep | .eStubHome _
  | .ePushOn | .ePushOff | .eSetPos _ _ _ | .rxEscaped128 | .rxDataBegin | .rxMdoEnd | .rxConfirm | .rxOtherPair _
  | .rdConfirm | .rdObject | .rdMotor | .connect _ _ | .close => none

/-- The invariant of the block. Every state reached from `State.instantiate p backlog`, with `p` in its domain and any
`backlog`, has it. -/
structure Inv (s : State) : Prop where
  /-- R12, R15. -/
  params : s.params.wf = true
  /-- R44. -/
  bufBound : s.buf.length ≤ s.params.maxPayload
  /-- Outside an object nothing is collected (R174, R176, R181, R187). -/
  bufEmpty : s.st ≠ .payload → s.st ≠ .pmark → s.buf = []
  /-- "A confirmation read never enters `PAYLOAD`" (R189). -/
  confirmOutside : s.kind = .confirm → s.st ≠ .payload ∧ s.st ≠ .pmark
  /-- "No value above `P_MAX_RESYNC + 1` is ever held" (R45). -/
  rcntBound : ∀ m, s.params.maxResync = some m → s.rcnt ≤ m + 1
  /-- An active read is within its budget (R175). -/
  rcntActive : s.st ≠ .idle → overResync s.params s.rcnt = false
  /-- "A confirmation read has no resync events" (R175). -/
  rcntConfirm : s.kind = .confirm → s.rcnt = 0
  /-- A transaction is running exactly while `busy = 1` (R53). -/
  busyCur : s.busy = true ↔ s.cur ≠ none
  /-- A running transaction passed R220's connection check, and nothing disconnects it. -/
  busyConn : s.busy = true → s.conn = .connected
  /-- The read is the transaction's own (R110). -/
  busyKind : ∀ t, s.cur = some t → s.kind = readOf s.params t
  /-- While its read is active, `res` still has the tag NONE (R50, R220). -/
  busyRes : s.busy = true → s.st ≠ .idle → s.res = .none
  /-- A confirmation read that has ended left one of its results (R193). -/
  endConfirm : s.busy = true → s.st = .idle → s.kind = .confirm →
    s.res = .okConfirm ∨ s.res = .err .timeout ∨ s.res = .err .transportError
  /-- A generic object read that has ended left one of its results (R194). -/
  endObject : s.busy = true → s.st = .idle → s.kind = .object →
    (∃ p, s.res = .okObject p) ∨ s.res = .err .timeout ∨ s.res = .err .transportError ∨ s.res = .err .protocolDesync
  /-- A motor-position read that has ended left one of its results (R195). -/
  endMotor : s.busy = true → s.st = .idle → s.kind = .motor →
    (∃ h m1 m2 m3 v, s.res = .okMotor h m1 m2 m3 v) ∨
      s.res = .err .timeout ∨ s.res = .err .transportError ∨ s.res = .err .protocolDesync
  /-- R47. -/
  resPayload : ∀ p, s.res = .okObject p → p.length ≤ s.params.maxPayload
  /-- Autotune-on clears the flag before the write (R226). -/
  onCleared : s.cur = some (.autotuning true) → s.continuousOff = false
  /-- A single step runs only after autotuning was seen switched off (R227). -/
  stepAllowed : s.cur = some .singleStep → s.continuousOff = true

end Sys2Proof.Machine
end

