-- ==== Sys2Proof/Certificates/Slice0/Obligations.lean ====
section
/-! DEFINITION. The statements for the provers. Each docstring names the rules of spec/ it formalises; "derived" ones say
what they rest on. A statement whose conclusion is an equation of states says the instruction's whole frame with it: every
field that the right side does not write is unchanged. -/

open Sys2Proof Sys2Proof.Machine

/-! ## Frame Codec -/

/-- R125, R126: `unescape` undoes `escape` on every payload, and `escape` undoes `unescape` wherever it gives one. -/
def Obligations.EscapeAndUnescapeAreInverse : Prop :=
  (∀ p : List Byte, unescape (escape p) = some p) ∧ (∀ s p : List Byte, unescape s = some p → escape p = s)

/-- R121: the length of an escaped payload, and that in unit alignment it holds no control pair and no lone 128. -/
def Obligations.EscapeLengthAndUnits : Prop :=
  ∀ p : List Byte, (escape p).length = p.length + p.count 128 ∧
    firstControlPair 0 (escape p) = none ∧ unescape (escape p) ≠ none

/-- R129: the first control pair of an encoded object, scanned from index 2 in units, is its closing pair. -/
def Obligations.FirstControlPairClosesTheObject : Prop :=
  ∀ (p : List Byte) (e : Byte) (f : List Byte), stuffObjFrame p e = .ok f →
    firstControlPair 2 (f.drop 2) = some (2 + (escape p).length, e)

/-! ## Operands -/

/-- R140: no sign, no leading zero, no padding; 1 to 5 digits; the digits spell the number. -/
def Obligations.DecimalTextSpellsThePosition : Prop :=
  ∀ v : Pos, readDigits 0 (dec v) = (v.toNat, []) ∧ 1 ≤ (dec v).length ∧ (dec v).length ≤ 5 ∧
    (∀ b ∈ dec v, 0x30 ≤ b.toNat ∧ b.toNat ≤ 0x39) ∧ (v ≠ 0 → (dec v).head? ≠ some 0x30) ∧ dec 0 = [0x30]

/-- R100, R101: the length of a set-positions payload, and that escaping leaves it as it is. -/
def Obligations.SetPositionsPayloadIsNeverStuffed : Prop :=
  ∀ p1 p2 p3 : Pos, escape (setPosPayload p1 p2 p3) = setPosPayload p1 p2 p3 ∧
    (setPosPayload p1 p2 p3).length = 8 + (dec p1).length + (dec p2).length + (dec p3).length ∧
    11 ≤ (setPosPayload p1 p2 p3).length ∧ (setPosPayload p1 p2 p3).length ≤ 23

/-! ## The pure operations: the frame or the error on the result port (log 9), nothing else written -/

/-- R123: `[128, op]`, or InvalidArgument for 128. -/
def Obligations.StuffCmdReturnsItsFrame : Prop :=
  ∀ (s : State) (op : Byte), s.busy = false → s.st = .idle →
    exec (.stuffCmd op) s =
      .next { s with ret := if op = 128 then .error .invalidArgument else .frame [128, op] }

/-- R124: `[128, 28] ++ escape(p) ++ [128, end]`, or InvalidArgument for an end code 128. -/
def Obligations.StuffObjReturnsItsFrame : Prop :=
  ∀ (s : State) (p : List Byte) (e : Byte), s.busy = false → s.st = .idle →
    exec (.stuffObj p e) s =
      .next { s with ret := if e = 128 then .error .invalidArgument else .frame ([128, 28] ++ escape p ++ [128, e]) }

/-- R141, R142, R143. -/
def Obligations.SimpleCommandsReturnTheirFrames : Prop :=
  ∀ s : State, s.busy = false → s.st = .idle →
    exec .eStop s = .next { s with ret := .frame [128, 19] } ∧
    exec .eHomeAll s = .next { s with ret := .frame [128, 69] } ∧
    exec .eMread s = .next { s with ret := .frame [128, 74] }

/-- R144, R145, R146: the on and off characters follow P_ATC_POLARITY. -/
def Obligations.AutotuneCommandsReturnTheirFrames : Prop :=
  ∀ s : State, s.busy = false → s.st = .idle →
    exec .eAtcOn s = .next { s with
      ret := .frame [128, 28, 0x41, 0x54, 0x43, 0x20,
        (if s.params.polarity = .oneIsOn then 0x31 else 0x30), 128, 99] } ∧
    exec .eAtcOff s = .next { s with
      ret := .frame [128, 28, 0x41, 0x54, 0x43, 0x20,
        (if s.params.polarity = .oneIsOn then 0x30 else 0x31), 128, 99] } ∧
    exec .eAtcStep s = .next { s with ret := .frame [128, 28, 0x41, 0x54, 0x43, 0x20, 0x53, 128, 99] }

/-- R147, R148, R149: the stub id is one digit, and any other id than 1, 2, 3 is InvalidArgument. -/
def Obligations.StubHomeAndPushReturnTheirFrames : Prop :=
  ∀ (s : State) (n : Nat), s.busy = false → s.st = .idle →
    exec (.eStubHome n) s = .next { s with
      ret := if n = 1 ∨ n = 2 ∨ n = 3 then
          .frame [128, 28, 0x4D, 0x31, 0x48, 0x20, BitVec.ofNat 8 (0x30 + n), 128, 99]
        else .error .invalidArgument } ∧
    exec .ePushOn s = .next { s with ret := .frame [128, 28, 0x41, 0x54, 0x43, 0x20, 0x54, 128, 99] } ∧
    exec .ePushOff s = .next { s with ret := .frame [128, 28, 0x41, 0x54, 0x43, 0x20, 0x46, 128, 99] }

/-- R150: the frame carries the payload text as it stands, with P_MOTOR_SET_OPCODE as its end code. -/
def Obligations.SetPosReturnsItsUnstuffedFrame : Prop :=
  ∀ (s : State) (p1 p2 p3 : Pos), s.params.wf = true → s.busy = false → s.st = .idle →
    exec (.eSetPos p1 p2 p3) s = .next { s with
      ret := .frame ([128, 28, 0x4D, 0x50, 0x4F, 0x20] ++ dec p1 ++ [0x20] ++ dec p2 ++ [0x20] ++ dec p3
        ++ [0x0D, 0x0A, 128, s.params.motorSet]) }

/-- R152: an encoder command's frame depends on its operands and the parameters alone: states that agree on the parameters
give the same value, and only the result port is written. -/
def Obligations.PureOperationsDependOnTheirOperandsOnly : Prop :=
  ∀ (i : Instr) (s t : State), frameOf s.params i ≠ none → s.params = t.params →
    s.busy = false → s.st = .idle → t.busy = false → t.st = .idle →
    ∃ r : Ret, exec i s = .next { s with ret := r } ∧ exec i t = .next { t with ret := r } ∧ r ≠ .nothing

/-! ## Decoding and encoding -/

/-- Derived from R109 and R95: what `encode` writes, `decode` reads back, for every row of the table and every operand
value that has a spelling. -/
def Obligations.DecodeReadsBackEveryInstruction : Prop :=
  ∀ i : Instr, i.spellable = true → decode (encode i) = .ok i

/-- Derived from R90, R91, R97 to R100, R103: the frame of an encoder command, with any bytes after it, decodes to that
command and those bytes; and any data-object frame is scanned to its own end, whatever its payload holds. That the bytes
decode to the encoder command and not to the primitive that builds the same frame (`objectCommand` in the second clause) is
the model's choice (log 15); the frames of STUFF_CMD are left out, because a simple command's code decodes to that command. -/
def Obligations.FramesDecodeToTheirCommand : Prop :=
  (∀ (p : Params) (i : Instr) (f rest : List Byte), p.wf = true → frameOf p i = some (.ok f) →
    (∀ op, i ≠ .stuffCmd op) → (∀ payload e, i ≠ .stuffObj payload e) →
    decodeFrame p (f ++ rest) = .ok (i, rest)) ∧
  (∀ (p : Params) (payload : List Byte) (e : Byte) (f rest : List Byte), stuffObjFrame payload e = .ok f →
    decodeFrame p (f ++ rest) = .ok (objectCommand p payload e, rest) ∧
    scanObject (f.drop 2 ++ rest) = some (payload, e, rest))

/-- Derived from R95 and R109: whatever bytes are decoded, the instruction read is well formed. -/
def Obligations.DecodedInstructionsAreWellFormed : Prop :=
  ∀ (bytes : List Byte) (i : Instr), decode bytes = .ok i → i.wellFormed = true

/-- Words written out from the table and R109: E_STOP, E_ATC_STEP, E_STUB_HOME 2, the pair DATA_BEGIN, `close`, and
"reset", refused by name (R108). Two of the words several rows share: 0x801C is the pair and not the opening of STUFF_OBJ,
RD_OBJECT or RD_MOTOR, and 0x8013 is E_STOP and not STUFF_CMD; that is the model's choice (log 15). -/
def Obligations.WrittenOutWordsDecode : Prop :=
  decodeTableWord 16 0x8013 = some .eStop ∧
  decodeTableWord 72 0x801C41544320538063 = some .eAtcStep ∧
  decodeTableWord 72 0x801C4D314820328063 = some (.eStubHome 2) ∧
  decodeTableWord 16 0x801C = some .rxDataBegin ∧
  decode [0x63, 0x6C, 0x6F, 0x73, 0x65] = .ok .close ∧
  decode [0x72, 0x65, 0x73, 0x65, 0x74] = .error .resetHasNoEncoding

/-! ## The step -/

/-- Derived (logs 1, 2): a well-formed request that arrives runs as exec says, on the state with its request gone from the
port; it arrives when the block is ready or when it does not wait. The table's word put by `withFetchWord` is such a request. -/
def Obligations.StepRunsTheArrivingRequest : Prop :=
  (∀ (s : State) (r : Request) (rest : List Request), s.port = r :: rest → r.instr.wellFormed = true →
    ready s = true ∨ r.waits = false → step s = exec r.instr { s with port := rest }) ∧
  (∀ (s : State) (nbits w : Nat) (i : Instr), decodeTableWord nbits w = some i → i.wellFormed = true →
    step (s.withFetchWord nbits w) = exec i s)

/-- Derived from R80, R282: with no request an idle block waits, and from reset it does. -/
def Obligations.IdleBlockWaits : Prop :=
  (∀ s : State, s.port = [] → s.busy = false → s.st = .idle → step s = .next s) ∧
  step State.reset = .next State.reset

/-- R173: while a read is active each step takes exactly one RX event, the oldest; past the listed ones a free value. -/
def Obligations.ActiveReadTakesOneEvent : Prop :=
  ∀ s : State, hostWaits s → s.st ≠ .idle →
    (∀ e es, s.rx = e :: es → step s = onEvent e { s with rx := es }) ∧
    (s.rx = [] → step s = onEvent (Config.freeRx s.draws) { s with draws := s.draws + 1 })

/-- R258: while `busy = 1` every operation of R109 is refused; and (derived, log 10) so is one that comes while a read
started on its own runs. -/
def Obligations.OperationsInProgressRefuseRequests : Prop :=
  ∀ (i : Instr) (s : State), rxPairCode i = none →
    (s.busy = true → exec i s = .refused .busy) ∧
    (s.busy = false → s.st ≠ .idle → exec i s = .refused .readActive)

/-! ## The parser's transitions -/

/-- R177: a Timeout or RxError event ends the read in any active state. -/
def Obligations.TimeoutAndRxErrorEndTheRead : Prop :=
  ∀ (s : State) (es : List RxEvent), hostWaits s → s.st ≠ .idle →
    (s.rx = .timeout :: es →
      step s = .next { s with rx := es, res := .err .timeout, st := .idle, buf := [] }) ∧
    (s.rx = .rxError :: es →
      step s = .next { s with rx := es, res := .err .transportError, st := .idle, buf := [] })

/-- R178, R179, R180: Sync discards until a MARKER; an escaped pair outside an object leads back to Sync; in a confirmation
read CONFIRM ends the read and every other pair is skipped with no resync event. -/
def Obligations.ScanningOutsideAnObject : Prop :=
  ∀ (s : State) (b : Byte) (es : List RxEvent), hostWaits s → s.rx = .byte b :: es →
    (s.st = .sync → step s = .next { s with rx := es, st := if b = 128 then .classify else .sync }) ∧
    (s.st = .classify → b = 128 → step s = .next { s with rx := es, st := .sync }) ∧
    (s.st = .classify → s.kind = .confirm → b ≠ 128 →
      step s = if b = 4 then .next { s with rx := es, res := .okConfirm, st := .idle, buf := [] }
        else .next { s with rx := es, st := .sync })

/-- R181 with R175: DATA_BEGIN opens an object, any other code is a resync event. The read ends exactly when the bound is
finite and the new count exceeds it; with P_MAX_RESYNC = INF it never does. -/
def Obligations.ClassifyInObjectRead : Prop :=
  ∀ (s : State) (b : Byte) (es : List RxEvent), hostWaits s → s.rx = .byte b :: es →
    s.st = .classify → s.kind ≠ .confirm → b ≠ 128 →
    let resynced : State := { s with rx := es, rcnt := s.rcnt + 1, st := .sync }
    let desynced : State := { s with
      rx := es, rcnt := s.rcnt + 1, res := .err .protocolDesync, st := .idle, buf := [] }
    (b = 28 → step s = .next { s with rx := es, buf := [], st := .payload }) ∧
    (b ≠ 28 → s.params.maxResync = none → step s = .next resynced) ∧
    (∀ m, b ≠ 28 → s.params.maxResync = some m →
      step s = .next (if m < s.rcnt + 1 then desynced else resynced))

/-- R182, R183, R184: inside an object a 128 only marks; every other byte is appended, and a full buffer is a
ProtocolDesync. -/
def Obligations.PayloadBytesAreCollected : Prop :=
  ∀ (s : State) (b : Byte) (es : List RxEvent), hostWaits s → s.rx = .byte b :: es → s.st = .payload →
    step s =
      if b = 128 then .next { s with rx := es, st := .pmark }
      else if s.buf.length = s.params.maxPayload then
        .next { s with rx := es, res := .err .protocolDesync, st := .idle, buf := [] }
      else .next { s with rx := es, buf := s.buf ++ [b] }

/-- R185, R186, R187: after a MARKER inside an object, a second one is one literal 128, DATA_BEGIN restarts the object, and
any code but MDO_END abandons it. The last two are resync events, which end the read exactly when the bound is finite and
the new count exceeds it (R175). -/
def Obligations.MarkedBytesInsideAnObject : Prop :=
  ∀ (s : State) (b : Byte) (es : List RxEvent), hostWaits s → s.rx = .byte b :: es → s.st = .pmark → b ≠ 16 →
    let resynced : State := { s with
      rx := es, rcnt := s.rcnt + 1, buf := [], st := if b = 28 then .payload else .sync }
    let desynced : State := { s with
      rx := es, rcnt := s.rcnt + 1, res := .err .protocolDesync, st := .idle, buf := [] }
    (b = 128 → step s =
      if s.buf.length = s.params.maxPayload then
        .next { s with rx := es, res := .err .protocolDesync, st := .idle, buf := [] }
      else .next { s with rx := es, buf := s.buf ++ [128], st := .payload }) ∧
    (b ≠ 128 → s.params.maxResync = none → step s = .next resynced) ∧
    (∀ m, b ≠ 128 → s.params.maxResync = some m →
      step s = .next (if m < s.rcnt + 1 then desynced else resynced))

/-- R188, R189, R191, R192: `[128, 16]` completes the object: the payload whole, or for a motor read the status byte and
the three little-endian positions with the shape flag, and a payload under 7 bytes is a ProtocolDesync. -/
def Obligations.MdoEndCompletesTheObject : Prop :=
  ∀ (s : State) (es : List RxEvent), hostWaits s → s.rx = .byte 16 :: es → s.st = .pmark →
    (s.kind = .object →
      step s = .next { s with rx := es, res := .okObject s.buf, st := .idle, buf := [] }) ∧
    (s.kind = .motor → s.buf.length < 7 →
      step s = .next { s with rx := es, res := .err .protocolDesync, st := .idle, buf := [] }) ∧
    (∀ hst a1 b1 a2 b2 a3 b3 rest, s.kind = .motor → s.buf = hst :: a1 :: b1 :: a2 :: b2 :: a3 :: b3 :: rest →
      step s = .next { s with
        rx := es, st := .idle, buf := [],
        res := .okMotor hst (BitVec.ofNat 16 (a1.toNat + 256 * b1.toNat)) (BitVec.ofNat 16 (a2.toNat + 256 * b2.toNat))
          (BitVec.ofNat 16 (a3.toNat + 256 * b3.toNat))
          (decide (rest.length = 3) && hst.getLsbD 4 && hst.getLsbD 5 && !hst.getLsbD 2) })

/-- R180: "a confirmation read never ends with ProtocolDesync": each step of one keeps it in Sync or Classify with result
and counter as they were, or ends it with a confirmation, a Timeout or a TransportError. -/
def Obligations.ConfirmationReadNeverDesyncs : Prop :=
  ∀ s t : State, hostWaits s → s.kind = .confirm → s.st = .sync ∨ s.st = .classify → step s = .next t →
    (t.kind = .confirm ∧ (t.st = .sync ∨ t.st = .classify) ∧ t.res = s.res ∧ t.rcnt = s.rcnt) ∨
    (t.st = .idle ∧ t.rcnt = s.rcnt ∧
      (t.res = .okConfirm ∨ t.res = .err .timeout ∨ t.res = .err .transportError))

/-! ## The RX control pairs as instructions (log 13)

A pair arrives behind the listed events. The first three statements are about one that finds none, the next about one
that finds no read active, and the last about every case. -/

/-- R179, R180: the five pairs in a confirmation read that is in Sync. -/
def Obligations.PairsInAConfirmationRead : Prop :=
  ∀ (s : State) (c : Byte), s.rx = [] → s.st = .sync → s.kind = .confirm → (Instr.rxOtherPair c).wellFormed = true →
    exec .rxEscaped128 s = .next s ∧ exec .rxDataBegin s = .next s ∧ exec .rxMdoEnd s = .next s ∧
    exec (.rxOtherPair c) s = .next s ∧
    exec .rxConfirm s = .next { s with res := .okConfirm, st := .idle, buf := [] }

/-- R175, R179, R181: the five pairs in an object read that is in Sync: an escaped pair is skipped, DATA_BEGIN opens an
object, the others are resync events, which end the read exactly when the bound is finite and the new count exceeds it. -/
def Obligations.PairsOutsideAnObject : Prop :=
  ∀ (s : State) (c : Byte), s.rx = [] → s.st = .sync → s.kind ≠ .confirm → (Instr.rxOtherPair c).wellFormed = true →
    let exceeded : Bool := match s.params.maxResync with
      | some m => decide (m < s.rcnt + 1)
      | none => false
    let resynced : Step :=
      if exceeded then .next { s with rcnt := s.rcnt + 1, res := .err .protocolDesync, st := .idle, buf := [] }
      else .next { s with rcnt := s.rcnt + 1, st := .sync }
    exec .rxEscaped128 s = .next s ∧ exec .rxDataBegin s = .next { s with buf := [], st := .payload } ∧
    exec .rxMdoEnd s = resynced ∧ exec .rxConfirm s = resynced ∧ exec (.rxOtherPair c) s = resynced

/-- R175, R185 to R189: the five pairs inside an object: a literal 128, a restart, the end, and two that abandon it. The
bound on resync events is as in the statement before. -/
def Obligations.PairsInsideAnObject : Prop :=
  ∀ (s : State) (c : Byte), s.rx = [] → s.st = .payload → s.kind ≠ .confirm → (Instr.rxOtherPair c).wellFormed = true →
    let desync : State := { s with res := .err .protocolDesync, st := .idle, buf := [] }
    let exceeded : Bool := match s.params.maxResync with
      | some m => decide (m < s.rcnt + 1)
      | none => false
    let resynced (after : PState) : Step :=
      if exceeded then .next { desync with rcnt := s.rcnt + 1 }
      else .next { s with rcnt := s.rcnt + 1, buf := [], st := after }
    exec .rxEscaped128 s =
      (if s.buf.length = s.params.maxPayload then .next desync else .next { s with buf := s.buf ++ [128] }) ∧
    exec .rxDataBegin s = resynced .payload ∧ exec .rxConfirm s = resynced .sync ∧
    exec (.rxOtherPair c) s = resynced .sync ∧
    exec .rxMdoEnd s = .next { s with
      st := .idle, buf := [],
      res := if s.kind = .object then .okObject s.buf else motorResult s.buf }

/-- Derived from R59, R74, R82 and R173 (log 13): with no read active the parser takes nothing, and the pair waits behind
the bytes that arrived before it. -/
def Obligations.PairsWaitWhileNoReadIsActive : Prop :=
  ∀ (s : State) (i : Instr) (c : Byte), s.st = .idle → rxPairCode i = some c →
    exec i s = .next { s with rx := s.rx ++ [.byte 128, .byte c] }

/-- Derived from R74, R82, R173 and R176 (log 13): a pair's instruction is the parser's own steps over the backlog with the
pair's bytes at its end, in order, each of them from an active read, up to the end of the read or of the listed events. -/
def Obligations.PairInstructionIsTheParsersSteps : Prop :=
  ∀ (s : State) (c : Byte), hostWaits s →
    let arrived : State := { s with rx := s.rx ++ [.byte 128, .byte c] }
    ∃ n ≤ s.rx.length + 2, exec (rxPairOf c) s = steps n arrived ∧
      (∀ k < n, ∃ u, steps k arrived = .next u ∧ u.st ≠ .idle) ∧
      (∀ t, exec (rxPairOf c) s = .next t → t.st = .idle ∨ (n = s.rx.length + 2 ∧ t.rx = []))

/-! ## The reads -/

/-- Derived from R174 and R193 to R195: a read starts in Sync with an empty buffer and a zero counter. That the three reads
can be started on their own, whatever `conn` is and with `busy` left at 0, is the model's reading (log 20, DEDUCED). -/
def Obligations.ReadsStart : Prop :=
  ∀ s : State, s.busy = false → s.st = .idle →
    exec .rdConfirm s = .next { s with kind := .confirm, buf := [], rcnt := 0, st := .sync } ∧
    exec .rdObject s = .next { s with kind := .object, buf := [], rcnt := 0, st := .sync } ∧
    exec .rdMotor s = .next { s with kind := .motor, buf := [], rcnt := 0, st := .sync }

/-- R127: an object read on `STUFF_OBJ(p, MDO_END)` ends with `OK_OBJECT(p)` after exactly the frame's bytes and no resync
event, if `p` fits the buffer; else it ends with ProtocolDesync. -/
def Obligations.ObjectReadReturnsThePayload : Prop :=
  ∀ (s : State) (p f : List Byte) (es : List RxEvent), hostWaits s → s.busy = false → s.st = .idle →
    stuffObjFrame p 16 = .ok f → s.rx = bytesIn f ++ es →
    (p.length ≤ s.params.maxPayload →
      andThen (exec .rdObject s) (steps f.length) =
        .next { s with kind := .object, rcnt := 0, rx := es, st := .idle, buf := [], res := .okObject p }) ∧
    (s.params.maxPayload < p.length → ∃ n es', n ≤ f.length ∧
      andThen (exec .rdObject s) (steps n) =
        .next { s with kind := .object, rcnt := 0, rx := es', st := .idle, buf := [], res := .err .protocolDesync })

/-- R94, R191, R195: a motor read on a motor-position response, the payload of any shape the buffer holds, gives the status
byte and the three positions after exactly the frame's bytes. -/
def Obligations.MotorReadReturnsThePositions : Prop :=
  ∀ (s : State) (hst a1 b1 a2 b2 a3 b3 : Byte) (rest f : List Byte) (es : List RxEvent),
    hostWaits s → s.busy = false → s.st = .idle →
    stuffObjFrame (hst :: a1 :: b1 :: a2 :: b2 :: a3 :: b3 :: rest) 16 = .ok f → s.rx = bytesIn f ++ es →
    7 + rest.length ≤ s.params.maxPayload →
    andThen (exec .rdMotor s) (steps f.length) =
      .next { s with
        kind := .motor, rcnt := 0, rx := es, st := .idle, buf := [],
        res := .okMotor hst (LE16 a1 b1) (LE16 a2 b2) (LE16 a3 b3)
          (shapeVerified (hst :: a1 :: b1 :: a2 :: b2 :: a3 :: b3 :: rest)) }

/-- R92, R193: whatever stands before `[128, 4]` without holding that pair in unit alignment is skipped. -/
def Obligations.ConfirmationReadSkipsToTheConfirmation : Prop :=
  ∀ (s : State) (noise : List Byte) (es : List RxEvent), hostWaits s → s.busy = false → s.st = .idle →
    skippedByConfirm noise = true → s.rx = bytesIn (noise ++ [128, 4]) ++ es →
    andThen (exec .rdConfirm s) (steps (noise.length + 2)) =
      .next { s with kind := .confirm, rcnt := 0, rx := es, st := .idle, buf := [], res := .okConfirm }

/-- R178, R179, R198: noise in front of a response, of plain bytes and escaped pairs (`unescape` gives a value exactly where
every 128 has its partner), changes neither the result of an object read or a motor read nor the counter. -/
def Obligations.LeadingNoiseIsTolerated : Prop :=
  ∀ (s : State) (noise p f : List Byte) (es : List RxEvent), hostWaits s → s.busy = false → s.st = .idle →
    unescape noise ≠ none → stuffObjFrame p 16 = .ok f → p.length ≤ s.params.maxPayload →
    s.rx = bytesIn (noise ++ f) ++ es →
    (andThen (exec .rdObject s) (steps (noise.length + f.length)) =
      .next { s with kind := .object, rcnt := 0, rx := es, st := .idle, buf := [], res := .okObject p }) ∧
    (∀ hst a1 b1 a2 b2 a3 b3 rest, p = hst :: a1 :: b1 :: a2 :: b2 :: a3 :: b3 :: rest →
      andThen (exec .rdMotor s) (steps (noise.length + f.length)) =
        .next { s with
          kind := .motor, rcnt := 0, rx := es, st := .idle, buf := [],
          res := .okMotor hst (LE16 a1 b1) (LE16 a2 b2) (LE16 a3 b3) (shapeVerified p) })

/-! ## Transactions -/

/-- R251: every operation but connect and close ends with NotConnected while disconnected, and writes no TX byte,
whatever its arguments (R257). -/
def Obligations.DisconnectedOperationsWriteNothing : Prop :=
  ∀ (s : State) (p1 p2 p3 : Pos) (n : Nat) (on : Bool), s.busy = false → s.st = .idle → s.conn = .disconnected →
    ∀ i ∈ [Instr.setMotorPositions p1 p2 p3, .readMotorPositions, .allStubsHome, .hardStopMotors, .autotuning on,
        .singleAutotuningStep, .selectedStubHome n, .sendTunePositionsOnOff on],
      exec i s = .next { s with res := .err .notConnected, busy := false, cur := none }

/-- R227, R228, R254: a stub outside 1 to 3, and a single step while continuous autotuning has not been switched off, are
InvalidArgument before any write. -/
def Obligations.BadArgumentsWriteNothing : Prop :=
  ∀ (s : State) (n : Nat), s.busy = false → s.st = .idle → s.conn = .connected →
    (n ≠ 1 → n ≠ 2 → n ≠ 3 →
      exec (.selectedStubHome n) s = .next { s with res := .err .invalidArgument, busy := false, cur := none }) ∧
    (s.continuousOff = false →
      exec .singleAutotuningStep s = .next { s with res := .err .invalidArgument, busy := false, cur := none })

/-- Derived from R221: connect closes a connection that is open, then opens the new one; the flag is cleared on success, and
a failed open leaves the block disconnected with TransportError. That the calls are recorded in `calls` is the model's
choice (log 18), and so is how the environment's answer is drawn, `openDraws` and `draws` (log 6). -/
def Obligations.ConnectOpensOrFails : Prop :=
  ∀ (s : State) (address : List Byte) (baud : Nat) (ok : Bool),
    s.busy = false → s.st = .idle → (drawOpen s).1 = ok →
    exec (.connect address baud) s = .next { s with
      openDraws := (drawOpen s).2.openDraws, draws := (drawOpen s).2.draws,
      calls := s.calls ++ (if s.conn = .connected then [.closeLink] else []) ++ [.openLink address baud],
      conn := if ok then .connected else .disconnected,
      continuousOff := if ok then false else s.continuousOff,
      res := if ok then .ok else .err .transportError,
      busy := false, cur := none }

/-- Derived from R222: close never fails and leaves the block disconnected. That the call is recorded in `calls` is the
model's choice (log 18). -/
def Obligations.CloseDisconnects : Prop :=
  ∀ s : State, s.busy = false → s.st = .idle →
    exec .close s = .next { s with
      conn := .disconnected, res := .ok, busy := false, cur := none,
      calls := s.calls ++ (if s.conn = .connected then [.closeLink] else []) }

/-- R220, R223 to R225: a connected block whose write succeeds sends the operation's frame and starts its read. -/
def Obligations.MotorTransactionsWriteAndRead : Prop :=
  ∀ (s : State) (p1 p2 p3 : Pos), s.params.wf = true → s.busy = false → s.st = .idle →
    s.conn = .connected → (drawWrite s).1 = .ok →
    let started : State := { s with
      writeDraws := (drawWrite s).2.writeDraws, draws := (drawWrite s).2.draws,
      busy := true, res := .none, buf := [], rcnt := 0, st := .sync }
    exec (.setMotorPositions p1 p2 p3) s = .next { started with
      cur := some .setPositions, kind := .object,
      tx := s.tx ++ ([128, 28, 0x4D, 0x50, 0x4F, 0x20] ++ dec p1 ++ [0x20] ++ dec p2 ++ [0x20] ++ dec p3
        ++ [0x0D, 0x0A, 128, s.params.motorSet]) } ∧
    exec .readMotorPositions s =
      .next { started with cur := some .readPositions, kind := .motor, tx := s.tx ++ [128, 74] } ∧
    exec .allStubsHome s = .next { started with cur := some .homeAll, kind := .confirm, tx := s.tx ++ [128, 69] }

/-- R220, R226 to R229: the acknowledged operations, with the read kind P_ACK_KIND; autotune-on clears continuousOff
before the write, and a single step needs the flag. -/
def Obligations.AcknowledgedTransactionsWriteAndRead : Prop :=
  ∀ (s : State) (n : Nat) (on : Bool), s.busy = false → s.st = .idle →
    s.conn = .connected → (drawWrite s).1 = .ok →
    let started : State := { s with
      writeDraws := (drawWrite s).2.writeDraws, draws := (drawWrite s).2.draws,
      busy := true, res := .none, buf := [], rcnt := 0, st := .sync,
      kind := if s.params.ack = .confirm then .confirm else .object }
    exec (.autotuning on) s = .next { started with
      cur := some (.autotuning on),
      continuousOff := if on then false else s.continuousOff,
      tx := s.tx ++ [128, 28, 0x41, 0x54, 0x43, 0x20,
        (if on = true ↔ s.params.polarity = .oneIsOn then 0x31 else 0x30), 128, 99] } ∧
    (s.continuousOff = true → exec .singleAutotuningStep s = .next { started with
      cur := some .singleStep,
      tx := s.tx ++ [128, 28, 0x41, 0x54, 0x43, 0x20, 0x53, 128, 99] }) ∧
    (n = 1 ∨ n = 2 ∨ n = 3 → exec (.selectedStubHome n) s = .next { started with
      cur := some .stubHome,
      tx := s.tx ++ [128, 28, 0x4D, 0x31, 0x48, 0x20, BitVec.ofNat 8 (0x30 + n), 128, 99] }) ∧
    exec (.sendTunePositionsOnOff on) s = .next { started with
      cur := some .push,
      tx := s.tx ++ [128, 28, 0x41, 0x54, 0x43, 0x20, (if on then 0x54 else 0x46), 128, 99] }

/-- R230, R287: hard stop writes its frame and ends; the parser is not started and the backlog is untouched. -/
def Obligations.HardStopWritesAndEnds : Prop :=
  ∀ s : State, s.busy = false → s.st = .idle → s.conn = .connected → (drawWrite s).1 = .ok →
    exec .hardStopMotors s = .next { s with
      writeDraws := (drawWrite s).2.writeDraws, draws := (drawWrite s).2.draws,
      tx := s.tx ++ [128, 19], res := .ok, busy := false, cur := none }

/-- R71, R110, R252, R259: when the environment fails the write, any prefix of the operation's frame (that of the encoder
command it expands to) has been sent, the operation ends with TransportError, and no read starts. -/
def Obligations.FailedWriteSendsAPrefix : Prop :=
  ∀ (i c : Instr) (s : State) (frame : List Byte) (sent : Nat),
    s.busy = false → s.st = .idle → s.conn = .connected → (drawWrite s).1 = .fail sent →
    encoderCommandOf i = some c → frameOf s.params c = some (.ok frame) →
    (i = .singleAutotuningStep → s.continuousOff = true) →
    exec i s = .next { s with
      writeDraws := (drawWrite s).2.writeDraws, draws := (drawWrite s).2.draws,
      tx := s.tx ++ frame.take sent, res := .err .transportError, busy := false, cur := none,
      continuousOff := if i = .autotuning true then false else s.continuousOff }

/-- R220, R223 to R229: when a transaction's read has ended the next step ends the transaction: an error unchanged, a
motor result whole, every other result OK; and an acknowledged autotune-off sets continuousOff. -/
def Obligations.EndOfTransaction : Prop :=
  ∀ (s : State) (t : Txn), hostWaits s → s.busy = true → s.st = .idle → s.cur = some t →
    (∀ e, s.res = .err e → step s = .next { s with busy := false, cur := none }) ∧
    (∀ h m1 m2 m3 v, s.res = .okMotor h m1 m2 m3 v → t = .readPositions →
      step s = .next { s with busy := false, cur := none }) ∧
    ((s.res = .okConfirm ∨ ∃ p, s.res = .okObject p) → t ≠ .readPositions →
      step s = .next { s with
        busy := false, cur := none, res := .ok,
        continuousOff := if t = .autotuning false then true else s.continuousOff })

/-- R223: setMotorPositions with a successful write and any data object that fits the buffer as its answer ends with OK
after the object's bytes and one step more. -/
def Obligations.SetMotorPositionsRunsToOk : Prop :=
  ∀ (s : State) (p1 p2 p3 : Pos) (answer f : List Byte) (es : List RxEvent),
    s.params.wf = true → hostWaits s → s.busy = false → s.st = .idle → s.conn = .connected →
    (drawWrite s).1 = .ok → stuffObjFrame answer 16 = .ok f → answer.length ≤ s.params.maxPayload →
    s.rx = bytesIn f ++ es →
    andThen (exec (.setMotorPositions p1 p2 p3) s) (steps (f.length + 1)) =
      .next { s with
        writeDraws := (drawWrite s).2.writeDraws, draws := (drawWrite s).2.draws,
        rx := es, kind := .object, rcnt := 0, buf := [], st := .idle, busy := false,
        cur := none, res := .ok,
        tx := s.tx ++ ([128, 28, 0x4D, 0x50, 0x4F, 0x20] ++ dec p1 ++ [0x20] ++ dec p2 ++ [0x20] ++ dec p3
          ++ [0x0D, 0x0A, 128, s.params.motorSet]) }

/-- R224: readMotorPositions with a successful write and a motor-position response as its answer ends with the three
positions. -/
def Obligations.ReadMotorPositionsRunsToThePositions : Prop :=
  ∀ (s : State) (hst a1 b1 a2 b2 a3 b3 : Byte) (rest f : List Byte) (es : List RxEvent),
    hostWaits s → s.busy = false → s.st = .idle → s.conn = .connected → (drawWrite s).1 = .ok →
    stuffObjFrame (hst :: a1 :: b1 :: a2 :: b2 :: a3 :: b3 :: rest) 16 = .ok f →
    7 + rest.length ≤ s.params.maxPayload → s.rx = bytesIn f ++ es →
    andThen (exec .readMotorPositions s) (steps (f.length + 1)) =
      .next { s with
        writeDraws := (drawWrite s).2.writeDraws, draws := (drawWrite s).2.draws,
        rx := es, kind := .motor, rcnt := 0, buf := [], st := .idle, busy := false,
        cur := none, tx := s.tx ++ [128, 74],
        res := .okMotor hst (LE16 a1 b1) (LE16 a2 b2) (LE16 a3 b3)
          (shapeVerified (hst :: a1 :: b1 :: a2 :: b2 :: a3 :: b3 :: rest)) }

/-- R225: allStubsHome with a successful write ends with OK when a confirmation arrives, whatever is skipped before it. -/
def Obligations.AllStubsHomeRunsToOk : Prop :=
  ∀ (s : State) (noise : List Byte) (es : List RxEvent),
    hostWaits s → s.busy = false → s.st = .idle → s.conn = .connected → (drawWrite s).1 = .ok →
    skippedByConfirm noise = true → s.rx = bytesIn (noise ++ [128, 4]) ++ es →
    andThen (exec .allStubsHome s) (steps (noise.length + 3)) =
      .next { s with
        writeDraws := (drawWrite s).2.writeDraws, draws := (drawWrite s).2.draws,
        rx := es, kind := .confirm, rcnt := 0, buf := [], st := .idle, busy := false,
        cur := none, res := .ok, tx := s.tx ++ [128, 69] }

/-! ## The whole machine -/

/-- Derived from R280 with the reset values of 10_state.md, and from R14 and R15: that State.reset takes their defaults for
the polarity and the capacity is log 7. The values of `kind` (log 8) and of the model's own fields are the model's, and the
backlog is a free value (log 3). -/
def Obligations.ResetValues : Prop :=
  State.reset.st = .idle ∧ State.reset.buf = [] ∧ State.reset.rcnt = 0 ∧ State.reset.res = .none ∧
  State.reset.conn = .disconnected ∧ State.reset.continuousOff = false ∧ State.reset.busy = false ∧
  State.reset.tx = [] ∧ State.reset.params.polarity = .oneIsOn ∧ State.reset.params.maxPayload = 64

/-- The invariant holds after reset, and in every new instance whose parameters are in their domain, whatever the backlog. -/
def Obligations.InvariantHoldsAtReset : Prop :=
  Inv State.reset ∧ ∀ (p : Params) (backlog : List Byte), p.wf = true → Inv (State.instantiate p backlog)

/-- Every step keeps the invariant. -/
def Obligations.StepsKeepTheInvariant : Prop := ∀ s t : State, Inv s → step s = .next t → Inv t

/-- R189, R258: from a state with the invariant no step faults, and a step is refused only for a request that does not wait
while an operation is in progress, or for one that is no instruction. -/
def Obligations.NoStepFaults : Prop :=
  ∀ s : State, Inv s → (∀ r, step s ≠ .fault r) ∧
    (∀ r, step s = .refused r → (r = .illFormed ∨ (r = .busy ∧ s.busy = true) ∨ (r = .readActive ∧ s.st ≠ .idle)) ∧
      ∃ q rest, s.port = q :: rest ∧ (q.instr.wellFormed = false ∨ q.waits = false))

/-- R71: TX is append-only: no step takes back or changes a byte already sent. -/
def Obligations.TxIsAppendOnly : Prop := ∀ s t : State, step s = .next t → s.tx <+: t.tx

/-- R39: "No port changes them while the block runs". -/
def Obligations.ParametersNeverChange : Prop := ∀ s t : State, step s = .next t → t.params = s.params

/-- R51, R232: the connection state changes only where a connect or a close runs. -/
def Obligations.OnlyConnectAndCloseChangeTheConnection : Prop :=
  ∀ s t : State, step s = .next t → t.conn ≠ s.conn →
    ∃ u, (∃ a n, fetch s = .run (.connect a n) u) ∨ fetch s = .run .close u

/-- R52: the only writers of continuousOff: connect and autotune-on clear it, an acknowledged autotune-off sets it. -/
def Obligations.OnlyThreeWritersOfContinuousOff : Prop :=
  ∀ s t : State, step s = .next t → t.continuousOff ≠ s.continuousOff →
    (t.continuousOff = false ∧ ∃ u, (∃ a n, fetch s = .run (.connect a n) u) ∨ fetch s = .run (.autotuning true) u) ∨
    (t.continuousOff = true ∧ fetch s = .waiting ∧ s.cur = some (.autotuning false) ∧ t.res = .ok)

/-- R50, R53: the result register of an idle block changes only when an operation of 43_transactions.md begins: a step from
a ready state that changes it runs one of the ten. -/
def Obligations.ResultKeepsUntilTheNextTransaction : Prop :=
  ∀ s t : State, ready s = true → step s = .next t → t.res ≠ s.res →
    ∃ i u, fetch s = .run i u ∧ rxPairCode i = none ∧ frameOf s.params i = none ∧
      i ≠ .rdConfirm ∧ i ≠ .rdObject ∧ i ≠ .rdMotor

/-- Derived from R72, R74, R82 and R286: nothing is flushed and nothing overtakes: a step leaves the listed events as they
were, or takes the oldest one while a read is active, or adds an arriving control pair's bytes at the end (log 13), of which
an active read takes the oldest ones and an idle block none. -/
def Obligations.BacklogIsOnlyConsumedByAnActiveRead : Prop :=
  ∀ s t : State, step s = .next t →
    t.rx = s.rx ∨ (s.st ≠ .idle ∧ fetch s = .waiting ∧ ∃ e, s.rx = e :: t.rx) ∨
    (∃ i u c n, fetch s = .run i u ∧ rxPairCode i = some c ∧ n ≤ s.rx.length + 2 ∧ (s.st = .idle → n = 0) ∧
      t.rx = (s.rx ++ [RxEvent.byte 128, .byte c]).drop n)

/-- R256, R260, in the two steps that an error of a read takes (log 12). The step in which the read ends with an error
writes `res`, `st` and `buf`, and beyond them only the event it consumed and, for a ProtocolDesync, the count of the resync
event that caused it. The step that ends the transaction with that error writes `busy` (and the model's `cur`), and leaves
the block ready. -/
def Obligations.ReadErrorsLeaveTheBlockReady : Prop :=
  (∀ (s t : State) (e : ErrCode), Inv s → fetch s = .waiting → s.st ≠ .idle → step s = .next t → t.st = .idle →
    t.res = .err e →
    t = { s with
      res := .err e, st := .idle, buf := [], rcnt := t.rcnt, rx := t.rx, draws := t.draws } ∧
    (t.rcnt = s.rcnt ∨ (t.rcnt = s.rcnt + 1 ∧ e = .protocolDesync)) ∧
    ((∃ taken, s.rx = taken :: t.rx ∧ t.draws = s.draws) ∨ (s.rx = [] ∧ t.rx = [] ∧ t.draws = s.draws + 1))) ∧
  (∀ (s t : State) (e : ErrCode), Inv s → s.busy = true → s.st = .idle → step s = .next t → t.busy = false →
    t.res = .err e →
    s.res = .err e ∧ t = { s with busy := false, cur := none } ∧ t.buf = [] ∧ ready t = true)
end

