-- ==== Sys2Proof/Laws/Codec.lean ====
section
/-! SUPPORT. The Frame Codec and decimal text, one byte at a time: what escape, unescape, the unit scan and the division
loop do with the front of their argument. -/

namespace Sys2Proof.Machine

/-- R120 on a 128. -/
theorem escape_marker (p : List Byte) : escape (MARKER :: p) = MARKER :: MARKER :: escape p := by simp [escape]

/-- R120 on any other byte. -/
theorem escape_other {b : Byte} (h : b ≠ MARKER) (p : List Byte) :
    escape (b :: p) = b :: escape p := by
  simp [escape, h]

/-- R122 on an escaped pair. -/
theorem unescape_marker (s : List Byte) : unescape (MARKER :: MARKER :: s) = prependByte MARKER (unescape s) := by
  rw [unescape]; simp

/-- R122 on any other byte. -/
theorem unescape_other {b : Byte} (h : b ≠ MARKER) (s : List Byte) :
    unescape (b :: s) = prependByte b (unescape s) := by
  cases s with
  | nil => simp [unescape, h, prependByte]
  | cons c s => rw [unescape]; simp [h]

/-- An escaped pair is one unit of two bytes (R121). -/
theorem firstControlPair_marker (k : Nat) (s : List Byte) :
    firstControlPair k (MARKER :: MARKER :: s) = firstControlPair (k+2) s := by
  rw [firstControlPair]; simp

/-- Any other byte is one unit (R121). -/
theorem firstControlPair_other {b : Byte} (h : b ≠ MARKER) (k : Nat) (s : List Byte) :
    firstControlPair k (b :: s) = firstControlPair (k+1) s := by
  cases s with
  | nil => simp [firstControlPair]
  | cons c s => rw [firstControlPair]; simp [h]

/-- A payload without 128 is sent as it stands (R120). -/
theorem escape_of_not_mem (p : List Byte) (h : MARKER ∉ p) : escape p = p := by
  induction p with
  | nil => rfl
  | cons b p ih => simp at h; rw [escape_other (Ne.symm h.1), ih h.2]

/-- What a data-object frame is when there is one (R124). -/
theorem stuffObjFrame_ok {payload : List Byte} {e : Byte} {f : List Byte} (h : stuffObjFrame payload e = .ok f) :
    e ≠ MARKER ∧ f = MARKER :: DATA_BEGIN :: (escape payload ++ [MARKER, e]) := by
  unfold stuffObjFrame at h
  split at h
  · cases h
  · cases h; exact ⟨‹_›, rfl⟩

/-- R101. -/
theorem digitByte_toNat {d : Nat} (h : d < 10) : (digitByte d).toNat = 48 + d := by simp [digitByte]; omega

/-- Decimal text holds digits only (R140). -/
theorem decDigits_digits (fuel v : Nat) : ∀ b ∈ decDigits fuel v, ∃ d, d < 10 ∧ b = digitByte d := by
  induction fuel generalizing v with
  | zero => intro b hb; simp [decDigits] at hb; exact ⟨v % 10, by omega, hb⟩
  | succ n ih =>
    intro b hb
    unfold decDigits at hb
    split at hb
    · simp at hb; exact ⟨v, ‹_›, hb⟩
    · simp at hb; rcases hb with hb | hb
      · exact ih _ b hb
      · exact ⟨v % 10, by omega, hb⟩

/-- No leading zero (R140). -/
theorem decDigits_head (fuel v : Nat) (hv : v ≤ fuel) (h0 : v ≠ 0) : (decDigits fuel v).head? ≠ some 0x30 := by
  induction fuel generalizing v with
  | zero => omega
  | succ n ih =>
    unfold decDigits
    split
    · simp only [List.head?_cons, ne_eq, Option.some.injEq]
      intro h
      have := congrArg BitVec.toNat h
      rw [digitByte_toNat (by omega)] at this; simp at this; omega
    · have := ih (v/10) (by omega) (by omega)
      have hne : decDigits n (v/10) ≠ [] := by cases n <;> simp [decDigits]; split <;> simp
      rw [List.head?_append_of_ne_nil _ hne]; exact this

/-- The number of digits (R140). -/
theorem decDigits_length (fuel v k : Nat) (hv : v < 10^(k+1)) (hf : v ≤ fuel) :
    1 ≤ (decDigits fuel v).length ∧ (decDigits fuel v).length ≤ k + 1 := by
  induction fuel generalizing v k with
  | zero => simp [decDigits]
  | succ n ih =>
    unfold decDigits
    split
    · simp
    · cases k with
      | zero => simp at hv; omega
      | succ k =>
        have := ih (v/10) k (by rw [pow_succ] at hv; omega) (by omega)
        simp; omega

theorem decNat_ne_nil (n : Nat) : decNat n ≠ [] := by
  unfold decNat; cases n with
  | zero => simp [decDigits]
  | succ n => unfold decDigits; split <;> simp

/-- R75: the value of a little-endian pair of bytes. -/
theorem LE16_eq (a b : Byte) : LE16 a b = BitVec.ofNat 16 (a.toNat + 256 * b.toNat) := by
  apply BitVec.eq_of_toNat_eq
  have := a.isLt; have := b.isLt
  simp [LE16]

end Sys2Proof.Machine
end

