-- ==== Sys2Proof/Laws/Decode.lean ====
section
/-! SUPPORT. The decoder, one token or one unit at a time. -/

namespace Sys2Proof

open Sys2Proof.Machine

/-! ## Digits -/

theorem isDigit_digitByte {d : Nat} (h : d < 10) : isDigit (digitByte d) = true := by
  simp [isDigit, digitByte_toNat h]; omega

theorem readDigits_digit {d : Nat} (h : d < 10) (acc : Nat) (s : List Byte) :
    readDigits acc (digitByte d :: s) = readDigits (acc*10+d) s := by
  rw [readDigits, isDigit_digitByte h]; simp [digitByte_toNat h]

/-- Digits read after a prefix of value `acc` (R140). -/
theorem readDigits_decDigits (fuel v acc : Nat) (hv : v ≤ fuel) (s : List Byte) :
    ∃ k, readDigits acc (decDigits fuel v ++ s) = readDigits (acc * 10^k + v) s := by
  induction fuel generalizing v acc s with
  | zero => 
    have : v = 0 := by omega
    subst this
    refine ⟨1, ?_⟩
    simp only [decDigits, List.cons_append, List.nil_append]
    rw [readDigits_digit (by omega)]; simp
  | succ n ih =>
    unfold decDigits
    split
    · refine ⟨1, ?_⟩; simp only [List.cons_append, List.nil_append]; rw [readDigits_digit (by omega)]; simp
    · obtain ⟨k, hk⟩ := ih (v/10) acc (by omega) (digitByte (v % 10) :: s)
      refine ⟨k+1, ?_⟩
      rw [List.append_assoc]
      simp only [List.cons_append, List.nil_append]
      rw [hk, readDigits_digit (by omega), pow_succ]
      congr 1
      have := Nat.div_add_mod v 10
      have e : (acc * 10 ^ k + v / 10) * 10 = acc * (10^k*10) + (v/10) * 10 := by ring
      rw [e]; omega

/-! ## Units of a frame -/

theorem scanObject_marker (s : List Byte) :
    scanObject (MARKER :: MARKER :: s) = prependPayload MARKER (scanObject s) := by
  rw [scanObject]; simp

theorem scanObject_other {b : Byte} (h : b ≠ MARKER) (c : Byte) (s : List Byte) :
    scanObject (b :: c :: s) = prependPayload b (scanObject (c :: s)) := by
  rw [scanObject]; simp [h]

/-! ## The spelling of an operation -/

/-- A token in front of what the rest of the text gives. -/
def consTok (t : Token) : Except Reject (List Token) → Except Reject (List Token)
  | .ok us => .ok (t :: us)
  | .error r => .error r

/-- What ends a word: no byte, or a byte no word holds. -/
def wordEnd (s : List Byte) : Prop := ∀ b ∈ s.head?, isWordByte b = false

/-- One byte of the text. -/
theorem lex_cons (m : LexMode) (b : Byte) (s : List Byte) : lex m (b :: s) = (match lexByte m b with
    | .error r => .error r
    | .ok (ts, m') => match lex m' s with
      | .ok us => .ok (ts ++ us)
      | .error r => .error r) := by
  rcases h : lexByte m b with r | ⟨ts, m'⟩
  · simp only [lex, h]
  · cases h' : lex m' s <;> simp only [lex, h, h']

theorem lex_inWord_append (w : List Byte) (hw : ∀ b ∈ w, isWordByte b = true) (acc s : List Byte) :
    lex (.inWord acc) (w ++ s) = lex (.inWord (acc ++ w)) s := by
  induction w generalizing acc with
  | nil => simp
  | cons b w ih =>
    have hb := hw b (by simp)
    rw [List.cons_append, lex_cons]
    simp only [lexByte, hb, if_true, List.nil_append]
    rw [ih (fun c hc => hw c (by simp [hc]))]
    simp only [List.append_assoc, List.cons_append, List.nil_append]
    cases lex (.inWord (acc ++ b :: w)) s <;> rfl

theorem lex_inWord_end {acc s : List Byte} {t : Token} (ht : wordToken acc = .ok t) (hs : wordEnd s) :
    lex (.inWord acc) s = consTok t (lex .between s) := by
  cases s with
  | nil => simp [lex, ht, consTok]
  | cons b s =>
    have hb : isWordByte b = false := hs b (by simp)
    rw [lex_cons, lex_cons]
    simp only [lexByte, hb, Bool.false_eq_true, if_false, ht]
    cases hq : betweenByte b with
    | error r => rfl
    | ok x => 
      obtain ⟨ts, m⟩ := x
      simp only
      cases lex m s <;> rfl

/-- A word of the text is one token. -/
theorem lex_word {w s : List Byte} {t : Token} (hne : w ≠ []) (hw : ∀ b ∈ w, isWordByte b = true)
    (ht : wordToken w = .ok t) (hs : wordEnd s) :
    lex .between (w ++ s) = consTok t (lex .between s) := by
  cases w with
  | nil => exact absurd rfl hne
  | cons b w =>
    have hb := hw b (by simp)
    rw [List.cons_append, lex_cons]
    simp only [lexByte, betweenByte, hb, if_true]
    rw [lex_inWord_append w (fun c hc => hw c (by simp [hc])), List.cons_append, List.nil_append, lex_inWord_end ht hs]
    cases consTok t (lex .between s) <;> rfl

/-- A space separates. -/
theorem lex_space (s : List Byte) : lex .between (0x20 :: s) = lex .between s := by
  rw [lex_cons]
  have : lexByte .between 0x20 = .ok ([], .between) := by decide
  rw [this]; simp only [List.nil_append]; cases lex .between s <;> rfl

/-- A symbol is one token. -/
theorem lex_symbol {b : Byte} {t : Token} (h : lexByte .between b = .ok ([t], .between)) (s : List Byte) :
    lex .between (b :: s) = consTok t (lex .between s) := by
  rw [lex_cons, h]; simp only [List.cons_append, List.nil_append]; cases lex .between s <;> rfl

/-- A quoted address is one token. -/
theorem lex_str (a s : List Byte) (ha : 0x22 ∉ a) :
    lex .between ([0x22] ++ a ++ [0x22] ++ s) = consTok (.str a) (lex .between s) := by
  have key : ∀ (a acc : List Byte), 0x22 ∉ a →
      lex (.inString acc) (a ++ (0x22 :: s)) = consTok (.str (acc ++ a)) (lex .between s) := by
    intro a
    induction a with
    | nil =>
      intro acc _
      rw [List.nil_append, lex_cons]
      simp only [lexByte, if_true, List.cons_append, List.nil_append, List.append_nil]
      cases lex .between s <;> rfl
    | cons b a ih =>
      intro acc h
      simp at h
      rw [List.cons_append, lex_cons]
      have hb : b ≠ 0x22 := fun h' => h.1 h'.symm
      simp only [lexByte, if_neg hb, List.nil_append]
      rw [ih (acc ++ [b]) h.2]
      simp only [List.append_assoc, List.cons_append, List.nil_append]
      cases lex .between s <;> rfl
  have h1 : [0x22] ++ a ++ [0x22] ++ s = 0x22 :: (a ++ (0x22 :: s)) := by simp
  rw [h1, lex_cons]
  have : lexByte .between 0x22 = .ok ([], .inString []) := by decide
  rw [this]; simp only [List.nil_append]
  rw [key a [] ha]; simp only [List.nil_append]; cases lex .between s <;> rfl

theorem isWordByte_digitByte {d : Nat} (h : d < 10) :
    isWordByte (digitByte d) = true := by
  simp [isWordByte, isDigit_digitByte h]

theorem numeralValue_decDigits (fuel v acc : Nat) (hv : v ≤ fuel) (s : List Byte) :
    ∃ k, numeralValue false acc (decDigits fuel v ++ s) = numeralValue false (acc * 10^k + v) s := by
  have nd : ∀ {d : Nat} (h : d < 10) (acc : Nat) (s : List Byte),
      numeralValue false acc (digitByte d :: s) = numeralValue false (acc*10+d) s := by
    intro d h acc s
    rw [numeralValue]; simp [digitValue, isDigit_digitByte h, digitByte_toNat h]
  induction fuel generalizing v acc s with
  | zero => 
    have : v = 0 := by omega
    subst this
    refine ⟨1, ?_⟩
    simp only [decDigits, List.cons_append, List.nil_append]
    rw [nd (by omega)]; simp
  | succ n ih =>
    unfold decDigits
    split
    · refine ⟨1, ?_⟩; simp only [List.cons_append, List.nil_append]; rw [nd (by omega)]; simp
    · obtain ⟨k, hk⟩ := ih (v/10) acc (by omega) (digitByte (v % 10) :: s)
      refine ⟨k+1, ?_⟩
      rw [List.append_assoc]
      simp only [List.cons_append, List.nil_append]
      rw [hk, nd (by omega), pow_succ]
      congr 1
      have := Nat.div_add_mod v 10
      have e : (acc * 10 ^ k + v / 10) * 10 = acc * (10^k*10) + (v/10) * 10 := by ring
      rw [e]; omega

/-- A number written in decimal is read back (R109). -/
theorem wordToken_dec (n : Nat) : wordToken (decNat n) = .ok (.num n) := by
  have hv : numeralValue false 0 (decNat n) = some n := by
    obtain ⟨k, hk⟩ := numeralValue_decDigits n n 0 (Nat.le_refl _) []
    simpa [decNat, numeralValue] using hk
  have hd := decDigits_digits n n
  cases hq : decNat n with
  | nil => exact absurd hq (decNat_ne_nil n)
  | cons b s =>
    rw [hq] at hv
    obtain ⟨d, hd1, rfl⟩ := hd b (by show b ∈ decNat n; simp [hq])
    unfold wordToken
    simp only [isDigit_digitByte hd1, if_true]
    cases s with
    | nil => simp only [hv]
    | cons x s =>
      obtain ⟨e, he, rfl⟩ := hd x (by show x ∈ decNat n; simp [hq])
      cases s with
      | nil => simp only [hv]
      | cons y s =>
        have : ¬ (digitByte d = 0x30 ∧ digitByte e = 0x78) := by
          rintro ⟨-, h⟩
          have := congrArg BitVec.toNat h
          rw [digitByte_toNat he] at this; simp at this; omega
        simp only [if_neg this, hv]

/-- A number of the text is one token. -/
theorem lex_decNat (n : Nat) (s : List Byte) (hs : wordEnd s) :
    lex .between (decNat n ++ s) = consTok (.num n) (lex .between s) := by
  apply lex_word (decNat_ne_nil n) _ (wordToken_dec n) hs
  intro b hb
  obtain ⟨d, hd, rfl⟩ := decDigits_digits _ _ b hb
  exact isWordByte_digitByte hd

/-- Each spelling is that of one mnemonic (R109). -/
theorem mnemonicOf_text (m : Mnemonic) : mnemonicOf (mnemonicText m) = some m := by cases m <;> decide

theorem byteOperand_toNat (b : Byte) : byteOperand b.toNat = .ok b := by
  have := b.isLt; simp [byteOperand]; omega

theorem posOperand_toNat (b : Pos) : posOperand b.toNat = .ok b := by
  have := b.isLt; simp [posOperand]; omega

theorem listOperand_tokens (b : Byte) (bs : List Byte) (ts : List Token) :
    listOperand (listTokens (b :: bs) ++ ts) = .ok (b :: bs, ts) := by
  induction bs generalizing b with
  | nil => simp [listTokens, listOperand, byteOperand_toNat]
  | cons c s ih => simp only [listTokens, List.cons_append, listOperand, byteOperand_toNat, ih]

/-- The operands of STUFF_OBJ are read back (R109). -/
theorem objectOperands_tokens (f : List Byte → Byte → Instr) (p : List Byte) (e : Byte) :
    objectOperands f (.openBracket :: listTokens p ++ [.comma, .num e.toNat]) = .ok (f p e) := by
  cases p with
  | nil => simp [listTokens, objectOperands, byteOperand_toNat]
  | cons b bs =>
    have : ∃ x xs, listTokens (b :: bs) = Token.num x :: xs := by cases bs <;> exact ⟨_, _, rfl⟩
    obtain ⟨x, xs, hx⟩ := this
    have hl := listOperand_tokens b bs [.comma, .num e.toNat]
    rw [hx] at hl ⊢
    simp only [List.cons_append] at hl ⊢
    simp [objectOperands, hl, byteOperand_toNat]

end Sys2Proof
end

