-- ==== Sys2Proof/Laws/State.lean ====
section
/-! SUPPORT. One lemma per field for the updates every meaning is built from. Each is true by rfl; with them a proof reads a
field of an updated state without unfolding the update. -/

namespace Sys2Proof.Machine

/-! ## startRead -/

@[simp] theorem startRead_params (k : ReadKind) (s : State) : (startRead k s).params = s.params := rfl
@[simp] theorem startRead_st (k : ReadKind) (s : State) : (startRead k s).st = .sync := rfl
@[simp] theorem startRead_kind (k : ReadKind) (s : State) : (startRead k s).kind = k := rfl
@[simp] theorem startRead_buf (k : ReadKind) (s : State) : (startRead k s).buf = [] := rfl
@[simp] theorem startRead_rcnt (k : ReadKind) (s : State) : (startRead k s).rcnt = 0 := rfl
@[simp] theorem startRead_res (k : ReadKind) (s : State) : (startRead k s).res = s.res := rfl
@[simp] theorem startRead_conn (k : ReadKind) (s : State) : (startRead k s).conn = s.conn := rfl
@[simp] theorem startRead_continuousOff (k : ReadKind) (s : State) : (startRead k s).continuousOff = s.continuousOff := rfl
@[simp] theorem startRead_busy (k : ReadKind) (s : State) : (startRead k s).busy = s.busy := rfl
@[simp] theorem startRead_cur (k : ReadKind) (s : State) : (startRead k s).cur = s.cur := rfl
@[simp] theorem startRead_tx (k : ReadKind) (s : State) : (startRead k s).tx = s.tx := rfl
@[simp] theorem startRead_rx (k : ReadKind) (s : State) : (startRead k s).rx = s.rx := rfl
@[simp] theorem startRead_writeDraws (k : ReadKind) (s : State) : (startRead k s).writeDraws = s.writeDraws := rfl
@[simp] theorem startRead_openDraws (k : ReadKind) (s : State) : (startRead k s).openDraws = s.openDraws := rfl
@[simp] theorem startRead_draws (k : ReadKind) (s : State) : (startRead k s).draws = s.draws := rfl
@[simp] theorem startRead_calls (k : ReadKind) (s : State) : (startRead k s).calls = s.calls := rfl
@[simp] theorem startRead_ret (k : ReadKind) (s : State) : (startRead k s).ret = s.ret := rfl
@[simp] theorem startRead_port (k : ReadKind) (s : State) : (startRead k s).port = s.port := rfl

/-! ## finish -/

@[simp] theorem finish_params (r : Result) (s : State) : (finish r s).params = s.params := rfl
@[simp] theorem finish_st (r : Result) (s : State) : (finish r s).st = .idle := rfl
@[simp] theorem finish_kind (r : Result) (s : State) : (finish r s).kind = s.kind := rfl
@[simp] theorem finish_buf (r : Result) (s : State) : (finish r s).buf = [] := rfl
@[simp] theorem finish_rcnt (r : Result) (s : State) : (finish r s).rcnt = s.rcnt := rfl
@[simp] theorem finish_res (r : Result) (s : State) : (finish r s).res = r := rfl
@[simp] theorem finish_conn (r : Result) (s : State) : (finish r s).conn = s.conn := rfl
@[simp] theorem finish_continuousOff (r : Result) (s : State) : (finish r s).continuousOff = s.continuousOff := rfl
@[simp] theorem finish_busy (r : Result) (s : State) : (finish r s).busy = s.busy := rfl
@[simp] theorem finish_cur (r : Result) (s : State) : (finish r s).cur = s.cur := rfl
@[simp] theorem finish_tx (r : Result) (s : State) : (finish r s).tx = s.tx := rfl
@[simp] theorem finish_rx (r : Result) (s : State) : (finish r s).rx = s.rx := rfl
@[simp] theorem finish_writeDraws (r : Result) (s : State) : (finish r s).writeDraws = s.writeDraws := rfl
@[simp] theorem finish_openDraws (r : Result) (s : State) : (finish r s).openDraws = s.openDraws := rfl
@[simp] theorem finish_draws (r : Result) (s : State) : (finish r s).draws = s.draws := rfl
@[simp] theorem finish_calls (r : Result) (s : State) : (finish r s).calls = s.calls := rfl
@[simp] theorem finish_ret (r : Result) (s : State) : (finish r s).ret = s.ret := rfl
@[simp] theorem finish_port (r : Result) (s : State) : (finish r s).port = s.port := rfl

/-! ## beginOp -/

@[simp] theorem beginOp_params (s : State) : (beginOp s).params = s.params := rfl
@[simp] theorem beginOp_st (s : State) : (beginOp s).st = s.st := rfl
@[simp] theorem beginOp_kind (s : State) : (beginOp s).kind = s.kind := rfl
@[simp] theorem beginOp_buf (s : State) : (beginOp s).buf = s.buf := rfl
@[simp] theorem beginOp_rcnt (s : State) : (beginOp s).rcnt = s.rcnt := rfl
@[simp] theorem beginOp_res (s : State) : (beginOp s).res = .none := rfl
@[simp] theorem beginOp_conn (s : State) : (beginOp s).conn = s.conn := rfl
@[simp] theorem beginOp_continuousOff (s : State) : (beginOp s).continuousOff = s.continuousOff := rfl
@[simp] theorem beginOp_busy (s : State) : (beginOp s).busy = true := rfl
@[simp] theorem beginOp_cur (s : State) : (beginOp s).cur = s.cur := rfl
@[simp] theorem beginOp_tx (s : State) : (beginOp s).tx = s.tx := rfl
@[simp] theorem beginOp_rx (s : State) : (beginOp s).rx = s.rx := rfl
@[simp] theorem beginOp_writeDraws (s : State) : (beginOp s).writeDraws = s.writeDraws := rfl
@[simp] theorem beginOp_openDraws (s : State) : (beginOp s).openDraws = s.openDraws := rfl
@[simp] theorem beginOp_draws (s : State) : (beginOp s).draws = s.draws := rfl
@[simp] theorem beginOp_calls (s : State) : (beginOp s).calls = s.calls := rfl
@[simp] theorem beginOp_ret (s : State) : (beginOp s).ret = s.ret := rfl
@[simp] theorem beginOp_port (s : State) : (beginOp s).port = s.port := rfl

/-! ## endOp -/

@[simp] theorem endOp_params (r : Result) (s : State) : (endOp r s).params = s.params := rfl
@[simp] theorem endOp_st (r : Result) (s : State) : (endOp r s).st = s.st := rfl
@[simp] theorem endOp_kind (r : Result) (s : State) : (endOp r s).kind = s.kind := rfl
@[simp] theorem endOp_buf (r : Result) (s : State) : (endOp r s).buf = s.buf := rfl
@[simp] theorem endOp_rcnt (r : Result) (s : State) : (endOp r s).rcnt = s.rcnt := rfl
@[simp] theorem endOp_res (r : Result) (s : State) : (endOp r s).res = r := rfl
@[simp] theorem endOp_conn (r : Result) (s : State) : (endOp r s).conn = s.conn := rfl
@[simp] theorem endOp_continuousOff (r : Result) (s : State) : (endOp r s).continuousOff = s.continuousOff := rfl
@[simp] theorem endOp_busy (r : Result) (s : State) : (endOp r s).busy = false := rfl
@[simp] theorem endOp_cur (r : Result) (s : State) : (endOp r s).cur = none := rfl
@[simp] theorem endOp_tx (r : Result) (s : State) : (endOp r s).tx = s.tx := rfl
@[simp] theorem endOp_rx (r : Result) (s : State) : (endOp r s).rx = s.rx := rfl
@[simp] theorem endOp_writeDraws (r : Result) (s : State) : (endOp r s).writeDraws = s.writeDraws := rfl
@[simp] theorem endOp_openDraws (r : Result) (s : State) : (endOp r s).openDraws = s.openDraws := rfl
@[simp] theorem endOp_draws (r : Result) (s : State) : (endOp r s).draws = s.draws := rfl
@[simp] theorem endOp_calls (r : Result) (s : State) : (endOp r s).calls = s.calls := rfl
@[simp] theorem endOp_ret (r : Result) (s : State) : (endOp r s).ret = s.ret := rfl
@[simp] theorem endOp_port (r : Result) (s : State) : (endOp r s).port = s.port := rfl

end Sys2Proof.Machine
end

