-- ==== Sys2Proof/Laws/Ops.lean ====
section
/-! SUPPORT. What each shared operation can do, once: the channels, the parser's registers, the admission of a request, and
`raise`. -/

namespace Sys2Proof.Machine

/-! ## Outcomes -/

@[simp] theorem andThen_next (s : State) (f : State → Step) : andThen (.next s) f = f s := rfl

theorem andThen_eq_next {o : Step} {f : State → Step} {t : State} (h : andThen o f = .next t) :
    ∃ u, o = .next u ∧ f u = .next t := by
  cases o with
  | next u => exact ⟨u, rfl, h⟩
  | fault r => simp [andThen] at h
  | refused r => simp [andThen] at h

theorem andThen_assoc (o : Step) (f g : State → Step) :
    andThen (andThen o f) g = andThen o (fun s => andThen (f s) g) := by
  cases o <;> rfl

/-! ## Admission -/

theorem whenIdle_ready {s : State} (hb : s.busy = false) (hs : s.st = .idle) (f : State → Step) : whenIdle s f = f s := by
  simp [whenIdle, hb, hs]

theorem whenIdle_busy {s : State} (hb : s.busy = true) (f : State → Step) : whenIdle s f = .refused .busy := by
  simp [whenIdle, hb]

theorem whenIdle_reading {s : State} (hb : s.busy = false) (hs : s.st ≠ .idle) (f : State → Step) :
    whenIdle s f = .refused .readActive := by
  simp [whenIdle, hb, hs]

/-- An operation that answers a next state was admitted. -/
theorem whenIdle_eq_next {s t : State} {f : State → Step} (h : whenIdle s f = .next t) :
    s.busy = false ∧ s.st = .idle ∧ f s = .next t := by
  unfold whenIdle at h
  split at h
  · simp at h
  · split at h
    · exact ⟨by simp_all, ‹_›, h⟩
    · simp at h

/-! ## Channels -/

theorem rxRead_cons {s : State} {e : RxEvent} {es : List RxEvent} (h : s.rx = e :: es) :
    rxRead s = (e, { s with rx := es }) := by
  simp [rxRead, h]

theorem rxRead_nil {s : State} (h : s.rx = []) :
    rxRead s = (Config.freeRx s.draws, { s with draws := s.draws + 1 }) := by
  simp [rxRead, h]

/-- The environment's answer to a write depends on its listed answers and on the counter, and taking it writes these. -/
theorem drawWrite_of_eq {s u : State} (hw : u.writeDraws = s.writeDraws) (hd : u.draws = s.draws) :
    drawWrite u = ((drawWrite s).1,
      { u with writeDraws := (drawWrite s).2.writeDraws, draws := (drawWrite s).2.draws }) := by
  cases u
  cases h : s.writeDraws <;> simp_all [drawWrite]

/-- The same for an open. -/
theorem drawOpen_of_eq {s u : State} (ho : u.openDraws = s.openDraws) (hd : u.draws = s.draws) :
    drawOpen u = ((drawOpen s).1, { u with openDraws := (drawOpen s).2.openDraws, draws := (drawOpen s).2.draws }) := by
  cases u
  cases h : s.openDraws <;> simp_all [drawOpen]

/-- A write takes one answer and appends what that answer lets through. -/
theorem txWrite_eq (frame : List Byte) (s : State) :
    txWrite frame s = ((drawWrite s).1 == .ok, { s with
      writeDraws := (drawWrite s).2.writeDraws, draws := (drawWrite s).2.draws,
      tx := s.tx ++ writtenBytes (drawWrite s).1 frame }) := by
  unfold txWrite
  rw [drawWrite_of_eq (s := s) (u := s) rfl rfl]

/-- An open takes one answer and is recorded. -/
theorem openLink_eq (a : List Byte) (n : Nat) (s : State) :
    openLink a n s = ((drawOpen s).1, { s with
      openDraws := (drawOpen s).2.openDraws, draws := (drawOpen s).2.draws, calls := s.calls ++ [.openLink a n] }) := by
  unfold openLink
  rw [drawOpen_of_eq (s := s) (u := s) rfl rfl]

/-- Whatever the answer, what reaches the wire is the front of the frame (R71). -/
theorem writtenBytes_front (d : WriteDraw) (frame : List Byte) : writtenBytes d frame <+: frame := by
  cases d with
  | ok => exact List.prefix_rfl
  | fail n => exact List.take_prefix n frame

theorem closeLink_eq (s : State) : closeLink s = { s with
    conn := .disconnected, calls := s.calls ++ (if s.conn = .connected then [.closeLink] else []) } := by
  unfold closeLink
  split <;> rename_i h
  · rfl
  · cases hc : s.conn with
    | connected => exact absurd hc h
    | disconnected =>
      cases s
      simp_all

/-! ## The parser's registers -/

/-- A resync event ends the read with ProtocolDesync or leaves it active with the counter raised. -/
theorem resyncEvent_eq (f : State → State) (s : State) :
    resyncEvent f s = if overResync s.params (s.rcnt + 1) = true then
        finish (.err .protocolDesync) { s with rcnt := s.rcnt + 1 }
      else f { s with rcnt := s.rcnt + 1 } := rfl

theorem overResync_inf {p : Params} (h : p.maxResync = none) (n : Nat) : overResync p n = false := by
  simp [overResync, h]

theorem overResync_some {p : Params} {m : Nat} (h : p.maxResync = some m) (n : Nat) :
    overResync p n = decide (m < n) := by
  simp [overResync, h]

/-! ## The end of an operation -/

theorem raise_idle {s : State} (h : s.st = .idle) (e : ErrCode) : raise e s = endOp (.err e) s := by
  simp [raise, abortRead, h]

/-- Everything `raise` does (R256). -/
theorem raise_spec (e : ErrCode) (s : State) :
    raise e s = { s with res := .err e, busy := false, cur := none, st := .idle,
                         buf := if s.st = .idle then s.buf else [] } := by
  unfold raise abortRead
  split <;> rename_i h
  · cases s
    simp_all [endOp]
  · simp [endOp]

theorem giveBack_frame (r : Except ErrCode (List Byte)) (s : State) :
    giveBack r s = { s with ret := (giveBack r s).ret } := by
  cases r <;> rfl

end Sys2Proof.Machine
end

