-- ==== Sys2Proof/Laws/Parser.lean ====
section
/-! SUPPORT. What the parser can do: it writes `st`, `buf`, `rcnt` and `res` and nothing else, and a read of an event also
consumes it. -/

namespace Sys2Proof.Machine

/-- Only the parser's own registers differ (R193 to R195, "State written"; `kind` is written at the start only). -/
abbrev OnlyParser (s t : State) : Prop :=
  t = { s with st := t.st, buf := t.buf, rcnt := t.rcnt, res := t.res }

theorem onlyParser_finish (r : Result) (s : State) : OnlyParser s (finish r s) := rfl

theorem onlyParser_resyncEvent {f : State → State} (hf : ∀ u, OnlyParser u (f u)) (s : State) :
    OnlyParser s (resyncEvent f s) := by
  rw [resyncEvent_eq]
  split
  · rfl
  · exact (hf _).trans (by rw [hf])

theorem onlyParser_appendByte {f : State → State} (hf : ∀ u, OnlyParser u (f u)) (b : Byte) (s : State) :
    OnlyParser s (appendByte b f s) := by
  unfold appendByte
  split
  · rfl
  · exact (hf _).trans (by rw [hf])

theorem completeObject_frame {s t : State} (h : completeObject s = .next t) : OnlyParser s t := by
  unfold completeObject at h
  split at h
  · cases h; rfl
  · cases h; rfl
  · cases h

theorem onByte_frame {b : Byte} {s t : State} (h : onByte b s = .next t) : OnlyParser s t := by
  unfold onByte at h
  split at h
  · cases h; rfl
  · cases h; unfold inSync; split <;> rfl
  · cases h
    unfold inClassify classifyConfirm classifyObject
    split
    · rfl
    · split
      · split <;> rfl
      · split
        · rfl
        · exact onlyParser_resyncEvent (fun _ => rfl) s
  · cases h
    unfold inPayload
    split
    · rfl
    · exact onlyParser_appendByte (fun _ => rfl) b s
  · unfold inPmark at h
    split at h
    · cases h; exact onlyParser_appendByte (fun _ => rfl) _ s
    · split at h
      · exact completeObject_frame h
      · split at h
        · cases h; exact onlyParser_resyncEvent (fun _ => rfl) s
        · cases h; exact onlyParser_resyncEvent (fun _ => rfl) s

/-- One event changes the parser's registers only. -/
theorem onEvent_frame {e : RxEvent} {s t : State} (h : onEvent e s = .next t) : OnlyParser s t := by
  cases e with
  | byte b => exact onByte_frame h
  | timeout => cases h; rfl
  | rxError => cases h; rfl

/-- The parser's step changes its registers and consumes one event. -/
theorem rxStep_frame {s t : State} (h : rxStep s = .next t) :
    t = { s with st := t.st, buf := t.buf, rcnt := t.rcnt, res := t.res, rx := t.rx, draws := t.draws } ∧
      ((∃ e, s.rx = e :: t.rx) ∨ (s.rx = [] ∧ t.rx = [])) := by
  unfold rxStep at h
  cases hr : s.rx with
  | nil =>
    rw [rxRead_nil hr] at h
    have := onEvent_frame h
    exact ⟨this.trans (by rw [this]), .inr ⟨rfl, by rw [this]; exact hr⟩⟩
  | cons e es =>
    rw [rxRead_cons hr] at h
    have := onEvent_frame h
    exact ⟨this.trans (by rw [this]), .inl ⟨e, by rw [this]⟩⟩

/-- The events change the parser's registers only; those it takes are the oldest ones, in order, and taking fewer than all
means that the read has ended. -/
theorem feed_frame {es : List RxEvent} {s t : State} (h : feed es s = .next t) :
    t = { s with st := t.st, buf := t.buf, rcnt := t.rcnt, res := t.res, rx := t.rx } ∧
      ∃ n ≤ es.length, t.rx = es.drop n ∧ (n < es.length → t.st = .idle) := by
  induction es generalizing s with
  | nil => cases h; exact ⟨rfl, 0, Nat.le_refl 0, rfl, by simp⟩
  | cons e es ih =>
    unfold feed at h
    split at h
    · cases h; exact ⟨rfl, 0, Nat.zero_le _, rfl, fun _ => ‹_›⟩
    · obtain ⟨u, hu, ht⟩ := andThen_eq_next h
      have hs := onEvent_frame hu
      obtain ⟨h1, n, hn, h2, h3⟩ := ih ht
      exact ⟨h1.trans (by rw [hs]), n + 1, by simpa using hn, by simpa using h2, fun h => h3 (by simpa using h)⟩

/-- The parser does not look at the backlog (R59: only `RxRead` does). -/
theorem onEvent_rx (e : RxEvent) (s : State) (rx : List RxEvent) :
    onEvent e { s with rx := rx } = andThen (onEvent e s) fun t => .next { t with rx := rx } := by
  obtain ⟨_, st, _, _, _, _, _, _, _, _, _, _, _, _, _, _, _, _⟩ := s
  cases e with
  | timeout => rfl
  | rxError => rfl
  | byte b =>
    cases st
    all_goals
      simp only [onEvent, onByte, inSync, inClassify, classifyConfirm, classifyObject, inPayload, inPmark,
        appendByte, completeObject, resyncEvent_eq]
      repeat' split
      all_goals rfl

/-- Nor does it matter to a feed what the backlog was: the events it is given replace it. -/
theorem feed_rx (es : List RxEvent) (s : State) (rx : List RxEvent) : feed es { s with rx := rx } = feed es s := by
  cases es with
  | nil => rfl
  | cons e es =>
    unfold feed
    split
    · rfl
    · rw [onEvent_rx]
      cases onEvent e s with
      | next t => exact feed_rx es t rx
      | fault _ => rfl
      | refused _ => rfl

/-- With no read active an arriving pair waits behind the backlog. -/
theorem feedPair_idle {s : State} (h : s.st = .idle) (c : Byte) :
    feedPair c s = .next { s with rx := s.rx ++ [.byte MARKER, .byte c] } := by simp [feedPair, h]

/-- In an active read the parser takes the backlog with the pair at its end. -/
theorem feedPair_active {s : State} (h : s.st ≠ .idle) (c : Byte) :
    feedPair c s = feed (s.rx ++ [.byte MARKER, .byte c]) s := by
  simp [feedPair, h]

/-- An arriving pair changes the parser's registers only, and the backlog, with the pair at its end, loses its oldest
events to an active read. -/
theorem feedPair_frame {c : Byte} {s t : State} (h : feedPair c s = .next t) :
    t = { s with st := t.st, buf := t.buf, rcnt := t.rcnt, res := t.res, rx := t.rx } ∧
      ∃ n ≤ s.rx.length + 2, t.rx = (s.rx ++ [RxEvent.byte MARKER, .byte c]).drop n ∧ (s.st = .idle → n = 0) := by
  by_cases hs : s.st = .idle
  · rw [feedPair_idle hs] at h
    cases h
    exact ⟨rfl, 0, Nat.zero_le _, rfl, fun _ => rfl⟩
  · rw [feedPair_active hs] at h
    obtain ⟨h1, n, hn, h2, -⟩ := feed_frame h
    exact ⟨h1, n, by simpa using hn, h2, fun h => absurd h hs⟩

/-! ## Single events -/

@[simp] theorem onEvent_byte (b : Byte) (s : State) : onEvent (.byte b) s = onByte b s := rfl

theorem onByte_sync {s : State} (h : s.st = .sync) (b : Byte) : onByte b s = .next (inSync b s) := by
  simp [onByte, h]

theorem onByte_classify {s : State} (h : s.st = .classify) (b : Byte) : onByte b s = .next (inClassify b s) := by
  simp [onByte, h]

theorem onByte_payload {s : State} (h : s.st = .payload) (b : Byte) : onByte b s = .next (inPayload b s) := by
  simp [onByte, h]

theorem onByte_pmark {s : State} (h : s.st = .pmark) (b : Byte) : onByte b s = inPmark b s := by
  simp [onByte, h]

/-- Seven bytes or more decode to the status byte and three positions (R191). -/
theorem motorResult_long (h a1 b1 a2 b2 a3 b3 : Byte) (rest : List Byte) :
    motorResult (h :: a1 :: b1 :: a2 :: b2 :: a3 :: b3 :: rest) =
      .okMotor h (LE16 a1 b1) (LE16 a2 b2) (LE16 a3 b3)
        (shapeVerified (h :: a1 :: b1 :: a2 :: b2 :: a3 :: b3 :: rest)) := rfl

/-- Fewer do not (R189). -/
theorem motorResult_short {buf : List Byte} (h : buf.length < 7) : motorResult buf = .err .protocolDesync := by
  match buf, h with
  | [], _ => rfl
  | [_], _ => rfl
  | [_, _], _ => rfl
  | [_, _, _], _ => rfl
  | [_, _, _, _], _ => rfl
  | [_, _, _, _, _], _ => rfl
  | [_, _, _, _, _, _], _ => rfl
  | _ :: _ :: _ :: _ :: _ :: _ :: _ :: _, h => simp at h; omega

/-- A motor result is a decoded response or a ProtocolDesync. -/
theorem motorResult_cases (buf : List Byte) :
    (∃ h m1 m2 m3 v, motorResult buf = .okMotor h m1 m2 m3 v) ∨ motorResult buf = .err .protocolDesync := by
  by_cases h : buf.length < 7
  · exact .inr (motorResult_short h)
  · match buf, h with
    | [], h => simp at h
    | [_], h => simp at h
    | [_, _], h => simp at h
    | [_, _, _], h => simp at h
    | [_, _, _, _], h => simp at h
    | [_, _, _, _, _], h => simp at h
    | [_, _, _, _, _, _], h => simp at h
    | h :: a1 :: b1 :: a2 :: b2 :: a3 :: b3 :: rest, _ =>
      exact .inl ⟨h, _, _, _, _, motorResult_long h a1 b1 a2 b2 a3 b3 rest⟩

/-! ## Control pairs -/

/-- The last event of a feed, with nothing behind it. -/
theorem feed_last {e : RxEvent} {s : State} (hs : s.st ≠ .idle) (hr : s.rx = []) : feed [e] s = onEvent e s := by
  simp only [feed, hs, if_false]
  cases h : onEvent e s with
  | next t =>
    have ht : t.rx = [] := by rw [onEvent_frame h]; exact hr
    rw [andThen_next, ← ht]
  | fault _ => rfl
  | refused _ => rfl

/-- A pair that finds the backlog empty is its two bytes, one after the other. -/
theorem feedPair_next {c : Byte} {s u : State} (hs : s.st ≠ .idle) (hr : s.rx = []) (hu : onByte MARKER s = .next u)
    (hua : u.st ≠ .idle) : feedPair c s = onByte c u := by
  have hur : u.rx = [] := by rw [onByte_frame hu]; exact hr
  rw [feedPair_active hs, hr, List.nil_append, feed, if_neg hs, onEvent_byte, hu, andThen_next, feed_last hua hur,
    onEvent_byte]

/-- A pair met in Sync is classified by its second byte (R178). -/
theorem feedPair_sync {s : State} (hs : s.st = .sync) (hr : s.rx = []) (c : Byte) :
    feedPair c s = .next (inClassify c {s with st := .classify}) :=
  feedPair_next (by simp [hs]) hr (by rw [onByte_sync hs, inSync, if_pos rfl]) (by simp)

/-- A pair met inside an object is decided by its second byte (R182). -/
theorem feedPair_payload {s : State} (hs : s.st = .payload) (hr : s.rx = []) (c : Byte) :
    feedPair c s = inPmark c {s with st := .pmark} :=
  feedPair_next (by simp [hs]) hr (by rw [onByte_payload hs, inPayload, if_pos rfl]) (by simp)

end Sys2Proof.Machine
end

