-- ==== Sys2Proof/Laws/Transactions.lean ====
section
/-! SUPPORT. What the sequencer can do: an operation from an idle block either ends at once or has its read started. -/

namespace Sys2Proof.Machine

/-- `pre_write` steps touch `continuousOff` only (R226). -/
theorem clearOff_eq (on : Bool) (s : State) :
    clearOff on s = { s with continuousOff := if on then false else s.continuousOff } := by
  cases on <;> rfl

theorem noPreWrite_eq (s : State) : noPreWrite s = { s with continuousOff := s.continuousOff } := rfl

/-- Where the operation is over at once (R220): what `end` and `raise` leave from an idle block. -/
abbrev Ended (s t : State) : Prop :=
  t = { s with res := t.res, busy := false, cur := none, tx := t.tx, writeDraws := t.writeDraws, draws := t.draws,
               continuousOff := t.continuousOff }

/-- Where the transaction `x` waits for its read (R174, R220). -/
abbrev Started (x : Txn) (s t : State) : Prop :=
  t = { s with res := .none, busy := true, cur := some x, kind := readOf s.params x, buf := [], rcnt := 0, st := .sync,
               tx := t.tx, writeDraws := t.writeDraws, draws := t.draws, continuousOff := t.continuousOff }

theorem transact_disconnected {s : State} (hs : s.st = .idle) (hc : s.conn = .disconnected) (argOk : Bool)
    (frame : Except ErrCode (List Byte)) (pre : State → State) (read : Option Txn) :
    transact argOk frame pre read s = { s with res := .err .notConnected, busy := false, cur := none } := by
  dsimp only [transact]
  rw [if_pos (show (beginOp s).conn = .disconnected from hc), raise_idle (by simpa using hs)]
  rfl

theorem transact_badArgument {s : State} (hs : s.st = .idle) (hc : s.conn = .connected)
    (frame : Except ErrCode (List Byte)) (pre : State → State) (read : Option Txn) :
    transact false frame pre read s = { s with res := .err .invalidArgument, busy := false, cur := none } := by
  dsimp only [transact]
  rw [if_neg (show (beginOp s).conn ≠ .disconnected by simp [hc]), if_neg Bool.false_ne_true,
    raise_idle (by simpa using hs)]
  rfl

theorem transact_badFrame {s : State} (hs : s.st = .idle) (hc : s.conn = .connected) (e : ErrCode)
    (pre : State → State) (read : Option Txn) :
    transact true (.error e) pre read s = { s with res := .err e, busy := false, cur := none } := by
  dsimp only [transact]
  rw [if_neg (show (beginOp s).conn ≠ .disconnected by simp [hc]), if_pos rfl, raise_idle (by simpa using hs)]
  rfl

/-- The template with its checks passed goes on to the write (R220). -/
theorem transact_passed {s : State} (hc : s.conn = .connected) (bytes : List Byte) (pre : State → State)
    (read : Option Txn) : transact true (.ok bytes) pre read s = writeAndRead bytes read (pre (beginOp s)) := by
  dsimp only [transact]
  rw [if_neg (show (beginOp s).conn ≠ .disconnected by simp [hc]), if_pos rfl]

/-- The template with its checks passed and the write done (R220). -/
theorem transact_write_ok {s : State} {pre : State → State} {off : Bool}
    (hc : s.conn = .connected) (hw : (drawWrite s).1 = .ok)
    (hp : pre (beginOp s) = { beginOp s with continuousOff := off }) (bytes : List Byte) (read : Option Txn) :
    transact true (.ok bytes) pre read s =
      afterWrite read { beginOp s with
        continuousOff := off, writeDraws := (drawWrite s).2.writeDraws, draws := (drawWrite s).2.draws,
        tx := s.tx ++ bytes } := by
  rw [transact_passed hc, hp]
  simp only [writeAndRead, txWrite_eq]
  rw [drawWrite_of_eq (s := s) (u := { beginOp s with continuousOff := off }) rfl rfl]
  simp only [hw]
  rfl

/-- The same where a read follows: the transaction waits for it. -/
theorem transact_start {s : State} {pre : State → State} {off : Bool}
    (hc : s.conn = .connected) (hw : (drawWrite s).1 = .ok)
    (hp : pre (beginOp s) = { beginOp s with continuousOff := off }) (bytes : List Byte) (x : Txn) :
    transact true (.ok bytes) pre (some x) s = { s with
      continuousOff := off, writeDraws := (drawWrite s).2.writeDraws, draws := (drawWrite s).2.draws,
      tx := s.tx ++ bytes, busy := true, res := .none, buf := [], rcnt := 0, st := .sync, cur := some x,
      kind := readOf s.params x } := by
  rw [transact_write_ok hc hw hp]
  rfl

/-- The template with its checks passed and the write failed (R220, R252). -/
theorem transact_write_fail {s : State} {n : Nat} {pre : State → State} {off : Bool}
    (hs : s.st = .idle) (hc : s.conn = .connected) (hw : (drawWrite s).1 = .fail n)
    (hp : pre (beginOp s) = { beginOp s with continuousOff := off }) (bytes : List Byte) (read : Option Txn) :
    transact true (.ok bytes) pre read s = { s with
      continuousOff := off, writeDraws := (drawWrite s).2.writeDraws, draws := (drawWrite s).2.draws,
      tx := s.tx ++ bytes.take n, res := .err .transportError, busy := false, cur := none } := by
  rw [transact_passed hc, hp]
  simp only [writeAndRead, txWrite_eq]
  rw [drawWrite_of_eq (s := s) (u := { beginOp s with continuousOff := off }) rfl rfl]
  simp only [hw]
  rw [if_neg (by simp), raise_idle (by simpa using hs)]
  rfl

theorem ended_raise {s : State} (hs : s.st = .idle) (e : ErrCode) : Ended s (raise e s) := by
  rw [raise_idle hs]
  rfl

/-- Everything a write with what follows it can do. -/
theorem writeAndRead_cases {s : State} (hs : s.st = .idle) (bytes : List Byte) (read : Option Txn) :
    let t := writeAndRead bytes read s
    s.tx <+: t.tx ∧ t.continuousOff = s.continuousOff ∧
      ((Ended s t ∧ (t.res = .ok ∨ t.res = .err .transportError)) ∨
        ∃ x, read = some x ∧ t = { s with
          cur := some x, kind := readOf s.params x, buf := [], rcnt := 0, st := .sync, tx := t.tx,
          writeDraws := t.writeDraws, draws := t.draws }) := by
  have h := congrArg Prod.snd (txWrite_eq bytes s)
  simp only [writeAndRead]
  split
  · rw [h]
    cases read with
    | none => exact ⟨List.prefix_append _ _, rfl, .inl ⟨rfl, .inl rfl⟩⟩
    | some x => exact ⟨List.prefix_append _ _, rfl, .inr ⟨x, rfl, rfl⟩⟩
  · rw [h, raise_idle (by simpa using hs)]
    exact ⟨List.prefix_append _ _, rfl, .inl ⟨rfl, .inr rfl⟩⟩

/-- Everything the template can do from an idle block (R220, R257): it ends with OK or one error, or it starts the read of
`read` on a connected block with its own check passed. -/
theorem transact_cases {s : State} (hs : s.st = .idle) {pre : State → State} {off : Bool}
    (hp : pre (beginOp s) = { beginOp s with continuousOff := off }) (argOk : Bool)
    (frame : Except ErrCode (List Byte)) (read : Option Txn) :
    let t := transact argOk frame pre read s
    s.tx <+: t.tx ∧ (t.continuousOff = s.continuousOff ∨ t.continuousOff = off) ∧
      ((Ended s t ∧ (t.res = .ok ∨ ∃ e, t.res = .err e)) ∨
        ∃ x, read = some x ∧ Started x s t ∧ s.conn = .connected ∧ argOk = true ∧ t.continuousOff = off) := by
  intro t
  cases hc : s.conn with
  | disconnected =>
    have h : t = _ := transact_disconnected hs hc argOk frame pre read
    rw [h]
    exact ⟨List.prefix_rfl, .inl rfl, .inl ⟨rfl, .inr ⟨_, rfl⟩⟩⟩
  | connected =>
    cases argOk with
    | false =>
      have h : t = _ := transact_badArgument hs hc frame pre read
      rw [h]
      exact ⟨List.prefix_rfl, .inl rfl, .inl ⟨rfl, .inr ⟨_, rfl⟩⟩⟩
    | true =>
      cases frame with
      | error e =>
        have h : t = _ := transact_badFrame hs hc e pre read
        rw [h]
        exact ⟨List.prefix_rfl, .inl rfl, .inl ⟨rfl, .inr ⟨_, rfl⟩⟩⟩
      | ok bytes =>
        have h : t = writeAndRead bytes read { beginOp s with continuousOff := off } := by
          show transact _ _ _ _ _ = _
          rw [transact_passed hc, hp]
        obtain ⟨h1, h2, h3⟩ := writeAndRead_cases (s := { beginOp s with continuousOff := off }) (by simpa using hs)
          bytes read
        rw [← h] at h1 h2 h3
        refine ⟨h1, .inr h2, ?_⟩
        rcases h3 with ⟨he, hr⟩ | ⟨x, hx, hst⟩
        · exact .inl ⟨he.trans rfl, hr.imp_right fun hr => ⟨_, hr⟩⟩
        · exact .inr ⟨x, hx, hst.trans (by rw [h2]; rfl), rfl, rfl, h2⟩

/-- Everything a connect can do from an idle block (R221). -/
theorem connectOp_frame (a : List Byte) (n : Nat) {s : State} (hs : s.st = .idle) :
    let t := connectOp a n s
    t = { s with conn := t.conn, openDraws := t.openDraws, draws := t.draws, calls := t.calls, res := t.res,
                 continuousOff := t.continuousOff, busy := false, cur := none } ∧
      (t.res = .ok ∨ t.res = .err .transportError) ∧ (t.continuousOff = false ∨ t.continuousOff = s.continuousOff) := by
  have h := congrArg Prod.snd (openLink_eq a n (closeLink (beginOp s)))
  simp only [connectOp]
  split
  · rw [h, closeLink_eq]
    exact ⟨rfl, .inl rfl, .inl rfl⟩
  · rw [h, closeLink_eq, raise_idle (by exact hs)]
    exact ⟨rfl, .inr rfl, .inr rfl⟩

/-- The end of a transaction writes `res`, `busy`, `cur` and, after an acknowledged autotune-off, `continuousOff`. -/
theorem endTxn_some {s : State} {x : Txn} (h : s.cur = some x) :
    endTxn s = { s with res := mapResult x s.res, busy := false, cur := none,
                        continuousOff := if x = .autotuning false ∧ mapResult x s.res = .ok then true
                          else s.continuousOff } := by
  simp only [endTxn, h, onSuccess]
  split <;> rfl

theorem endTxn_none {s : State} (h : s.cur = none) : endTxn s = { s with busy := false } := by
  simp only [endTxn, h]
  cases s
  simp_all [endOp]

/-- Everything the end of a transaction can do. -/
theorem endTxn_frame (s : State) :
    endTxn s = { s with res := (endTxn s).res, busy := false, cur := none, continuousOff := (endTxn s).continuousOff } ∧
      ((endTxn s).continuousOff = s.continuousOff ∨
        ((endTxn s).continuousOff = true ∧ s.cur = some (.autotuning false) ∧ (endTxn s).res = .ok)) := by
  cases h : s.cur with
  | none => rw [endTxn_none h]; exact ⟨by cases s; simp_all, .inl rfl⟩
  | some x =>
    rw [endTxn_some h]
    refine ⟨rfl, ?_⟩
    by_cases hx : x = .autotuning false ∧ mapResult x s.res = .ok
    · exact .inr ⟨if_pos hx, by rw [hx.1], hx.2⟩
    · exact .inl (if_neg hx)

/-- An acknowledged operation's result is OK, NONE or an error, unless its read gave a motor result. -/
theorem ackResult_err (e : ErrCode) : ackResult (.err e) = .err e := rfl

/-- An error is surfaced unchanged (R220). -/
@[simp] theorem mapResult_err (x : Txn) (e : ErrCode) : mapResult x (.err e) = .err e := by
  cases x <;> rfl

@[simp] theorem mapResult_confirm {x : Txn} (h : x ≠ .readPositions) : mapResult x .okConfirm = .ok := by
  cases x <;> first | rfl | exact absurd rfl h

@[simp] theorem mapResult_object {x : Txn} (h : x ≠ .readPositions) (p : List Byte) :
    mapResult x (.okObject p) = .ok := by
  cases x <;> first | rfl | exact absurd rfl h

end Sys2Proof.Machine
end

