-- ==== Sys2Proof/Laws/Exec.lean ====
section
/-! SUPPORT. What exec does, by the three shapes of instruction: a pair fed to the parser, an operation that is admitted or
refused, and among these the pure ones. -/

namespace Sys2Proof.Machine

/-- A control pair is its two bytes offered to the parser. -/
theorem exec_pair {i : Instr} {c : Byte} (h : rxPairCode i = some c) (s : State) : exec i s = feedPair c s := by
  cases i <;> simp only [rxPairCode, Option.some.injEq, reduceCtorEq] at h <;> subst h <;> rfl

/-- Every operation of R109 is refused while another is in progress, and otherwise answers a next state. -/
theorem exec_operation {i : Instr} (h : rxPairCode i = none) :
    ∃ f : State → State, ∀ s, exec i s = whenIdle s fun t => .next (f t) := by
  cases i <;> simp only [rxPairCode, reduceCtorEq] at h <;> exact ⟨_, fun _ => rfl⟩

/-- A primitive or encoder command of an idle block returns its frame or its error, and writes nothing else. -/
theorem exec_pure {i : Instr} {s : State} {r : Except ErrCode (List Byte)} (hf : frameOf s.params i = some r)
    (hb : s.busy = false) (hs : s.st = .idle) : exec i s = .next (giveBack r s) := by
  cases i <;> simp only [frameOf, reduceCtorEq, Option.some.injEq] at hf <;> subst hf <;>
    simp only [exec, execStuffCmd, execStuffObj, execEStop, execEHomeAll, execEMread, execEAtcOn, execEAtcOff,
      execEAtcStep, execEStubHome, execEPushOn, execEPushOff, execESetPos, whenIdle_ready hb hs]

/-- What a pure operation leaves on the result port. -/
theorem giveBack_eq (r : Except ErrCode (List Byte)) :
    ∃ q : Ret, q ≠ .nothing ∧ ∀ s : State, giveBack r s = { s with ret := q } := by
  cases r with
  | ok frame => exact ⟨.frame frame, by simp, fun _ => rfl⟩
  | error e => exact ⟨.error e, by simp, fun _ => rfl⟩

/-- What every operation of R109 leaves as it was, whatever it is. -/
structure OperationFrame (i : Instr) (s t : State) : Prop where
  busy : s.busy = false
  st : s.st = .idle
  tx : s.tx <+: t.tx
  params : t.params = s.params
  rx : t.rx = s.rx
  conn : t.conn = s.conn ∨ (∃ a n, i = .connect a n) ∨ i = .close
  continuousOff : t.continuousOff = s.continuousOff ∨
    (t.continuousOff = false ∧ ((∃ a n, i = .connect a n) ∨ i = .autotuning true))
  res : t.res = s.res ∨ (frameOf s.params i = none ∧ i ≠ .rdConfirm ∧ i ≠ .rdObject ∧ i ≠ .rdMotor)

theorem operationFrame_giveBack {i : Instr} {s : State} (hb : s.busy = false) (hs : s.st = .idle)
    (r : Except ErrCode (List Byte)) : OperationFrame i s (giveBack r s) := by
  obtain ⟨q, -, h⟩ := giveBack_eq r
  rw [h]
  exact ⟨hb, hs, List.prefix_rfl, rfl, rfl, .inl rfl, .inl rfl, .inl rfl⟩

theorem operationFrame_startRead {i : Instr} {s : State} (hb : s.busy = false) (hs : s.st = .idle) (k : ReadKind) :
    OperationFrame i s (startRead k s) :=
  ⟨hb, hs, List.prefix_rfl, rfl, rfl, .inl rfl, .inl rfl, .inl rfl⟩

theorem operationFrame_transact {i : Instr} {s : State} (hb : s.busy = false) (hs : s.st = .idle)
    {pre : State → State} {off : Bool} (hp : pre (beginOp s) = { beginOp s with continuousOff := off })
    (hoff : off = s.continuousOff ∨ (off = false ∧ i = .autotuning true))
    (hi : frameOf s.params i = none ∧ i ≠ .rdConfirm ∧ i ≠ .rdObject ∧ i ≠ .rdMotor) (argOk : Bool)
    (frame : Except ErrCode (List Byte)) (read : Option Txn) :
    OperationFrame i s (transact argOk frame pre read s) := by
  obtain ⟨h1, h2, h3⟩ := transact_cases hs hp argOk frame read
  have hc : (transact argOk frame pre read s).continuousOff = s.continuousOff ∨
      ((transact argOk frame pre read s).continuousOff = false ∧
        ((∃ a n, i = .connect a n) ∨ i = .autotuning true)) := by
    rcases h2 with h2 | h2
    · exact .inl h2
    · rcases hoff with ho | ⟨ho, hi⟩
      · exact .inl (h2.trans ho)
      · exact .inr ⟨h2.trans ho, .inr hi⟩
  rcases h3 with ⟨he, -⟩ | ⟨x, -, hst, -⟩
  · exact ⟨hb, hs, h1, by rw [he], by rw [he], .inl (by rw [he]), hc, .inr hi⟩
  · exact ⟨hb, hs, h1, by rw [hst], by rw [hst], .inl (by rw [hst]), hc, .inr hi⟩

/-- Everything an operation of R109 that answers a next state can do to the registers other operations rely on. -/
theorem exec_operation_frame {i : Instr} {s t : State} (hi : rxPairCode i = none) (ht : exec i s = .next t) :
    OperationFrame i s t := by
  cases i <;> simp only [rxPairCode, reduceCtorEq] at hi <;>
    simp only [exec, execStuffCmd, execStuffObj, execEStop, execEHomeAll, execEMread, execEAtcOn, execEAtcOff,
      execEAtcStep, execEStubHome, execEPushOn, execEPushOff, execESetPos, execRdConfirm, execRdObject, execRdMotor,
      execConnect, execClose, execSetMotorPositions, execReadMotorPositions, execAllStubsHome, execHardStopMotors,
      execAutotuning, execSingleAutotuningStep, execSelectedStubHome, execSendTunePositionsOnOff] at ht <;>
    obtain ⟨hb, hs, ht⟩ := whenIdle_eq_next ht <;> cases ht
  case connect a n =>
    obtain ⟨h, -, hf⟩ := connectOp_frame a n hs
    refine ⟨hb, hs, by rw [h], by rw [h], by rw [h], .inr (.inl ⟨a, n, rfl⟩), ?_, .inr (by simp [frameOf])⟩
    exact hf.symm.imp_right fun hf => ⟨hf, .inl ⟨a, n, rfl⟩⟩
  case close =>
    unfold closeOp
    rw [closeLink_eq]
    exact ⟨hb, hs, List.prefix_rfl, rfl, rfl, .inr (.inr rfl), .inl rfl, .inr (by simp [frameOf])⟩
  case autotuning on =>
    refine operationFrame_transact hb hs (clearOff_eq on _) ?_ (by simp [frameOf]) _ _ _
    cases on
    · exact .inl rfl
    · exact .inr ⟨rfl, rfl⟩
  all_goals first
    | exact operationFrame_giveBack hb hs _
    | exact operationFrame_startRead hb hs _
    | exact operationFrame_transact hb hs (noPreWrite_eq _) (.inl rfl) (by simp [frameOf]) _ _ _

/-! ## The counter between two reads

R283 says that `rcnt` holds its reset value whenever the block is idle; R176 and the vectors leave the last read's value there
(log 16). No instruction can tell the two apart. -/

/-- What an operation does from an idle block is the same for every value of `rcnt`, which is carried along where no read
starts. -/
abbrev RcntUnread (f : State → State) (s : State) (n : Nat) : Prop :=
  f { s with rcnt := n } = f s ∨
    ((f s).st = .idle ∧ (f s).rcnt = s.rcnt ∧ f { s with rcnt := n } = { f s with rcnt := n })

theorem rcntUnread_transact {s : State} (hs : s.st = .idle) {pre : State → State} {off : Bool}
    (hp : ∀ m, pre (beginOp { s with rcnt := m }) = { beginOp { s with rcnt := m } with continuousOff := off })
    (argOk : Bool) (frame : Except ErrCode (List Byte)) (read : Option Txn) (n : Nat) :
    RcntUnread (transact argOk frame pre read) s n := by
  have hp' : pre (beginOp s) = { beginOp s with continuousOff := off } := hp s.rcnt
  have hd := drawWrite_of_eq (s := s) (u := { s with rcnt := n }) rfl rfl
  unfold RcntUnread
  by_cases hc : s.conn = .disconnected
  · rw [transact_disconnected hs hc, transact_disconnected (s := { s with rcnt := n }) hs hc]
    exact .inr ⟨hs, rfl, rfl⟩
  · have hc : s.conn = .connected := by cases h : s.conn <;> simp_all
    match argOk, frame, hw : (drawWrite s).1, read with
    | false, _, _, _ =>
      rw [transact_badArgument hs hc, transact_badArgument (s := { s with rcnt := n }) hs hc]
      exact .inr ⟨hs, rfl, rfl⟩
    | true, .error _, _, _ =>
      rw [transact_badFrame hs hc, transact_badFrame (s := { s with rcnt := n }) hs hc]
      exact .inr ⟨hs, rfl, rfl⟩
    | true, .ok _, .fail _, _ =>
      rw [transact_write_fail hs hc hw hp',
        transact_write_fail (s := { s with rcnt := n }) hs hc (by rw [hd]; exact hw) (hp n), hd]
      exact .inr ⟨hs, rfl, rfl⟩
    | true, .ok _, .ok, none =>
      rw [transact_write_ok hc hw hp',
        transact_write_ok (s := { s with rcnt := n }) hc (by rw [hd]; exact hw) (hp n), hd]
      exact .inr ⟨hs, rfl, rfl⟩
    | true, .ok _, .ok, some _ =>
      rw [transact_start hc hw hp',
        transact_start (s := { s with rcnt := n }) hc (by rw [hd]; exact hw) (hp n), hd]
      exact .inl rfl

theorem rcntUnread_connect {s : State} (hs : s.st = .idle) (a : List Byte) (b n : Nat) :
    RcntUnread (connectOp a b) s n := by
  right
  cases hd : s.openDraws with
  | nil =>
    simp only [connectOp, closeLink_eq, openLink_eq, drawOpen, hd, beginOp]
    split <;> simp [raise_idle, hs, endOp]
  | cons d ds =>
    simp only [connectOp, closeLink_eq, openLink_eq, drawOpen, hd, beginOp]
    split <;> simp [raise_idle, hs, endOp]

/-- From a block with no read active no instruction reads `rcnt`: each does the same for every value of it. -/
theorem exec_rcnt_unread (i : Instr) {s : State} (hs : s.st = .idle) (n : Nat) :
    exec i { s with rcnt := n } = exec i s ∨
      ∃ t, exec i s = .next t ∧ t.st = .idle ∧ t.rcnt = s.rcnt ∧ exec i { s with rcnt := n } = .next { t with rcnt := n } := by
  cases hi : rxPairCode i with
  | some c =>
    rw [exec_pair hi, exec_pair hi, feedPair_idle hs, feedPair_idle (s := { s with rcnt := n }) hs]
    exact .inr ⟨_, rfl, hs, rfl, rfl⟩
  | none =>
    by_cases hb : s.busy = true
    · obtain ⟨f, hf⟩ := exec_operation hi
      rw [hf, hf, whenIdle_busy hb, whenIdle_busy (s := { s with rcnt := n }) hb]
      exact .inl rfl
    · have hb : s.busy = false := by simpa using hb
      have lift (f : State → State) (h : RcntUnread f s n) :
          Host.Outcome.next (f { s with rcnt := n }) = (.next (f s) : Step) ∨ ∃ t, (.next (f s) : Step) = .next t ∧
            t.st = .idle ∧ t.rcnt = s.rcnt ∧ (.next (f { s with rcnt := n }) : Step) = .next { t with rcnt := n } :=
        h.imp (by rintro h; rw [h]) fun ⟨h1, h2, h3⟩ => ⟨_, rfl, h1, h2, by rw [h3]⟩
      have give (r : Except ErrCode (List Byte)) : RcntUnread (giveBack r) s n := by
        cases r <;> exact .inr ⟨hs, rfl, rfl⟩
      cases i <;> simp only [rxPairCode, reduceCtorEq] at hi <;>
        simp only [exec, execStuffCmd, execStuffObj, execEStop, execEHomeAll, execEMread, execEAtcOn, execEAtcOff,
          execEAtcStep, execEStubHome, execEPushOn, execEPushOff, execESetPos, execRdConfirm, execRdObject, execRdMotor,
          execConnect, execClose, execSetMotorPositions, execReadMotorPositions, execAllStubsHome, execHardStopMotors,
          execAutotuning, execSingleAutotuningStep, execSelectedStubHome, execSendTunePositionsOnOff,
          whenIdle_ready hb hs, whenIdle_ready (s := { s with rcnt := n }) hb hs]
      case connect a b => exact lift (connectOp a b) (rcntUnread_connect hs a b n)
      case close => exact lift closeOp (.inr (by unfold closeOp; rw [closeLink_eq, closeLink_eq]; exact ⟨hs, rfl, rfl⟩))
      case autotuning on =>
        have hp (m : Nat) : clearOff on (beginOp { s with rcnt := m }) =
            { beginOp { s with rcnt := m } with continuousOff := if on then false else s.continuousOff } :=
          clearOff_eq on _
        exact lift (transact _ _ _ _) (rcntUnread_transact hs hp _ _ _ n)
      all_goals first
        | exact lift (giveBack _) (give _)
        | exact .inl rfl
        | exact lift (transact _ _ _ _) (rcntUnread_transact hs (fun _ => noPreWrite_eq _) _ _ _ n)
end Sys2Proof.Machine
end

