-- ==== Sys2Proof/Laws/PerInstr.lean ====
section
/-! SUPPORT. One statement for every instruction: its bytes are the two bytes of its control pair (R95), or its mnemonic's
spelling followed by its operands (R109), which never begins with a 128. -/

namespace Sys2Proof.Laws.Spelling

open Sys2Proof.Machine

/-- How an instruction is written. -/
def Statement (i : Instr) : Prop :=
  match rxPairCode i, instrMnemonic i with
  | some c, none => encode i = [MARKER, c]
  | none, some m => mnemonicText m <+: encode i ∧ (encode i).head? ≠ some MARKER
  | some _, some _ => False
  | none, none => False

/-- The mnemonic stands first in what an operation is rendered to. -/
theorem render_starts (m : Mnemonic) (ts : List Token) :
    mnemonicText m <+: render (.word (mnemonicText m) :: ts) ∧
      (render (.word (mnemonicText m) :: ts)).head? ≠ some MARKER := by
  have hp : mnemonicText m <+: render (.word (mnemonicText m) :: ts) := by
    cases ts with
    | nil => exact List.prefix_rfl
    | cons t ts =>
      show mnemonicText m <+: mnemonicText m ++ [0x20] ++ render (t :: ts)
      rw [List.append_assoc]
      exact List.prefix_append _ _
  refine ⟨hp, ?_⟩
  obtain ⟨rest, hr⟩ := hp
  rw [← hr]
  cases m <;> simp [mnemonicText, ascii, MARKER]

theorem stuffCmd (op : Byte) : Statement (.stuffCmd op) :=
  render_starts .stuffCmd _

theorem stuffObj (payload : List Byte) (endCode : Byte) : Statement (.stuffObj payload endCode) :=
  render_starts .stuffObj _

theorem eStop : Statement .eStop :=
  render_starts .eStop _

theorem eHomeAll : Statement .eHomeAll :=
  render_starts .eHomeAll _

theorem eMread : Statement .eMread :=
  render_starts .eMread _

theorem eAtcOn : Statement .eAtcOn :=
  render_starts .eAtcOn _

theorem eAtcOff : Statement .eAtcOff :=
  render_starts .eAtcOff _

theorem eAtcStep : Statement .eAtcStep :=
  render_starts .eAtcStep _

theorem eStubHome (n : Nat) : Statement (.eStubHome n) :=
  render_starts .eStubHome _

theorem ePushOn : Statement .ePushOn :=
  render_starts .ePushOn _

theorem ePushOff : Statement .ePushOff :=
  render_starts .ePushOff _

theorem eSetPos (p1 p2 p3 : Pos) : Statement (.eSetPos p1 p2 p3) :=
  render_starts .eSetPos _

theorem rxEscaped128 : Statement .rxEscaped128 :=
  rfl

theorem rxDataBegin : Statement .rxDataBegin :=
  rfl

theorem rxMdoEnd : Statement .rxMdoEnd :=
  rfl

theorem rxConfirm : Statement .rxConfirm :=
  rfl

theorem rxOtherPair (c : Byte) : Statement (.rxOtherPair c) :=
  rfl

theorem rdConfirm : Statement .rdConfirm :=
  render_starts .rdConfirm _

theorem rdObject : Statement .rdObject :=
  render_starts .rdObject _

theorem rdMotor : Statement .rdMotor :=
  render_starts .rdMotor _

theorem connect (address : List Byte) (baud : Nat) : Statement (.connect address baud) :=
  render_starts .connect _

theorem close : Statement .close :=
  render_starts .close _

theorem setMotorPositions (p1 p2 p3 : Pos) : Statement (.setMotorPositions p1 p2 p3) :=
  render_starts .setMotorPositions _

theorem readMotorPositions : Statement .readMotorPositions :=
  render_starts .readMotorPositions _

theorem allStubsHome : Statement .allStubsHome :=
  render_starts .allStubsHome _

theorem hardStopMotors : Statement .hardStopMotors :=
  render_starts .hardStopMotors _

theorem autotuning (on : Bool) : Statement (.autotuning on) :=
  render_starts .autotuning _

theorem singleAutotuningStep : Statement .singleAutotuningStep :=
  render_starts .singleAutotuningStep _

theorem selectedStubHome (n : Nat) : Statement (.selectedStubHome n) :=
  render_starts .selectedStubHome _

theorem sendTunePositionsOnOff (on : Bool) : Statement (.sendTunePositionsOnOff on) :=
  render_starts .sendTunePositionsOnOff _

end Sys2Proof.Laws.Spelling
end

