-- ==== Sys2Proof/Laws/Step.lean ====
section
/-! SUPPORT. What a step can do: it runs the request that arrives, or goes on with the operation in progress. -/

namespace Sys2Proof.Machine

theorem ready_iff (s : State) : ready s = true ↔ s.busy = false ∧ s.st = .idle := by
  simp [ready]

/-- Under the host's discipline no request arrives while an operation is in progress. -/
theorem fetch_waiting {s : State} (hw : hostWaits s) (h : ready s = false) : fetch s = .waiting := by
  unfold fetch
  split
  · rfl
  · rename_i r rest hp
    have : r.waits = true := hw r (by simp [hp])
    simp [h, this]

theorem step_of_waiting {s : State} (h : fetch s = .waiting) : step s = background s := by
  simp [step, h]

/-- While a read is active a step is the parser's (R173). -/
theorem step_active {s : State} (hw : hostWaits s) (hs : s.st ≠ .idle) : step s = rxStep s := by
  have hr : ready s = false := by simp [ready, hs]
  rw [step_of_waiting (fetch_waiting hw hr)]
  simp [background, hs]

/-- Once a transaction's read has ended a step is its end (R220). -/
theorem step_endTxn {s : State} (hw : hostWaits s) (hb : s.busy = true) (hs : s.st = .idle) :
    step s = .next (endTxn s) := by
  have hr : ready s = false := by simp [ready, hb]
  rw [step_of_waiting (fetch_waiting hw hr)]
  simp [background, hs, hb]

theorem step_event {s : State} (hw : hostWaits s) (hs : s.st ≠ .idle) {e : RxEvent} {es : List RxEvent}
    (hr : s.rx = e :: es) : step s = onEvent e { s with rx := es } := by
  rw [step_active hw hs, rxStep, rxRead_cons hr]

/-! A byte at the front of the backlog, by the parser's state. -/

theorem step_sync {s : State} (hw : hostWaits s) (hs : s.st = .sync) {b : Byte} {es : List RxEvent}
    (hr : s.rx = .byte b :: es) : step s = .next (inSync b { s with rx := es }) := by
  rw [step_event hw (by simp [hs]) hr, onEvent_byte, onByte_sync (by exact hs)]

theorem step_classify {s : State} (hw : hostWaits s) (hs : s.st = .classify) {b : Byte} {es : List RxEvent}
    (hr : s.rx = .byte b :: es) : step s = .next (inClassify b { s with rx := es }) := by
  rw [step_event hw (by simp [hs]) hr, onEvent_byte, onByte_classify (by exact hs)]

theorem step_payload {s : State} (hw : hostWaits s) (hs : s.st = .payload) {b : Byte} {es : List RxEvent}
    (hr : s.rx = .byte b :: es) : step s = .next (inPayload b { s with rx := es }) := by
  rw [step_event hw (by simp [hs]) hr, onEvent_byte, onByte_payload (by exact hs)]

theorem step_pmark {s : State} (hw : hostWaits s) (hs : s.st = .pmark) {b : Byte} {es : List RxEvent}
    (hr : s.rx = .byte b :: es) : step s = inPmark b { s with rx := es } := by
  rw [step_event hw (by simp [hs]) hr, onEvent_byte, onByte_pmark (by exact hs)]

/-- The request that arrives is at the port's head, is an instruction, and is gone from the port when it runs. -/
theorem fetch_run {s u : State} {i : Instr} (h : fetch s = .run i u) :
    ∃ r rest, s.port = r :: rest ∧ r.instr = i ∧ u = { s with port := rest } ∧ i.wellFormed = true ∧
      (ready s = true ∨ r.waits = false) := by
  unfold fetch at h
  split at h
  · cases h
  · rename_i r rest hp
    split at h
    · rename_i hr
      split at h
      · rename_i hwf
        cases h
        exact ⟨r, rest, hp, rfl, rfl, hwf, by simpa using hr⟩
      · cases h
    · cases h

theorem fetch_reject {s : State} {q : Refusal} (h : fetch s = .reject q) :
    q = .illFormed ∧ ∃ r rest, s.port = r :: rest ∧ r.instr.wellFormed = false := by
  unfold fetch at h
  split at h
  · cases h
  · rename_i r rest hp
    split at h
    · split at h
      · cases h
      · rename_i hwf
        cases h
        exact ⟨rfl, r, rest, hp, by simpa using hwf⟩
    · cases h

/-- The inversion of a step: the arriving request's meaning, an event of the active read, the end of a transaction, or
nothing at all. -/
theorem step_cases {s t : State} (h : step s = .next t) :
    (∃ i u, fetch s = .run i u ∧ exec i u = .next t) ∨
    (fetch s = .waiting ∧ s.st ≠ .idle ∧ rxStep s = .next t) ∨
    (fetch s = .waiting ∧ s.st = .idle ∧ s.busy = true ∧ t = endTxn s) ∨
    (fetch s = .waiting ∧ s.st = .idle ∧ s.busy = false ∧ t = s) := by
  unfold step at h
  split at h
  · exact .inl ⟨_, _, ‹_›, h⟩
  · cases h
  · unfold background at h
    split at h
    · cases hb : s.busy
      · rw [hb] at h; cases h; exact .inr (.inr (.inr ⟨‹_›, ‹_›, rfl, rfl⟩))
      · rw [hb] at h; cases h; exact .inr (.inr (.inl ⟨‹_›, ‹_›, rfl, rfl⟩))
    · exact .inr (.inl ⟨‹_›, ‹_›, h⟩)

/-! ## Runs -/

@[simp] theorem steps_zero (s : State) : steps 0 s = .next s := rfl

theorem steps_succ (n : Nat) (s : State) : steps (n + 1) s = andThen (step s) (steps n) := rfl

theorem steps_add (m n : Nat) (s : State) : steps (m + n) s = andThen (steps m s) (steps n) := by
  induction m generalizing s with
  | zero => simp
  | succ m ih =>
    rw [Nat.succ_add, steps_succ, steps_succ, andThen_assoc]
    congr 1
    funext u
    exact ih u

theorem steps_of_step {s t : State} (h : step s = .next t) (n : Nat) : steps (n + 1) s = steps n t := by
  rw [steps_succ, h, andThen_next]

@[simp] theorem bytesIn_cons (b : Byte) (bs : List Byte) : bytesIn (b :: bs) = .byte b :: bytesIn bs := rfl

theorem bytesIn_append (a b : List Byte) : bytesIn (a ++ b) = bytesIn a ++ bytesIn b := by simp [bytesIn]

end Sys2Proof.Machine
end

