-- ==== Sys2Proof/Tests/Slice0.lean ====
section
/-! SUPPORT. Tests: expected values are taken from the spec's own vectors (95_test_vectors.md: W, K, E, P, T) and tables, the
bytes of a spelling from R109 and US-ASCII (R101). Each is about one decoding or one step on a small state. -/

namespace Sys2Proof.Tests

open Sys2Proof Sys2Proof.Machine

/-- An instance with small parameters written out: MS = 0x4D, CONFIRM, ONE_IS_ON, capacity 64, no resync bound. -/
def parameters : Params := ⟨0x4D, .confirm, .oneIsOn, 64, none⟩

/-- The block after reset with these parameters and nothing in the backlog. -/
def fresh : State := State.instantiate parameters []

/-- Connected, with one successful write ahead. -/
def linked : State := { fresh with conn := .connected, writeDraws := [.ok] }

/-- A read of kind `k` in state `st`, with RX events ahead. -/
def reading (k : ReadKind) (st : PState) (rx : List RxEvent) : State := { fresh with kind := k, st := st, rx := rx }

/-- The state an outcome goes on with. -/
def nextOf : Step → Option State
  | .next s => some s
  | .fault _ => none
  | .refused _ => none

def retOf (o : Step) : Option Ret := (nextOf o).map State.ret

def resOf (o : Step) : Option Result := (nextOf o).map State.res

def txOf (o : Step) : Option (List Byte) := (nextOf o).map State.tx

/-! ## Well-formedness: one ill-formed term for each check -/

/-- R95: the four codes with rows of their own are no RX_OTHER_PAIR, and their neighbours are. -/
theorem test_otherPair_wellFormed :
    ([0x80, 0x1C, 0x10, 0x04].all fun c => !(Instr.rxOtherPair c).wellFormed) = true ∧
      ([0x00, 0x03, 0x05, 0x0F, 0x11, 0x1B, 0x1D, 0x7F, 0x81, 0xFF].all fun c => (Instr.rxOtherPair c).wellFormed) = true := by
  decide

/-- A quoted address cannot hold a quote. -/
theorem test_connect_spellable :
    (Instr.connect [0x43, 0x22] 9600).spellable = false ∧ (Instr.connect [0x43] 9600).spellable = true := by decide

/-- An ill-formed request is refused when it is taken. -/
theorem test_illFormed_refused :
    step { fresh with port := [⟨.rxOtherPair 0x10, true⟩] } = .refused .illFormed := rfl

/-! ## Decoding: the bytes of every row -/

/-- `STUFF_CMD 19` (R109). -/
theorem test_decode_stuffCmd :
    decode [0x53, 0x54, 0x55, 0x46, 0x46, 0x5F, 0x43, 0x4D, 0x44, 0x20, 0x31, 0x39] = .ok (.stuffCmd 0x13) := by decide

/-- The forms of a number that log 27 settles: 0x1c and 0x1C, 007, and 0X1C and 0x, which are none. -/
theorem test_decode_numbers :
    wordToken [0x30, 0x78, 0x31, 0x63] = .ok (.num 28) ∧ wordToken [0x30, 0x78, 0x31, 0x43] = .ok (.num 28) ∧
      wordToken [0x30, 0x30, 0x37] = .ok (.num 7) ∧ wordToken [0x30, 0x58, 0x31, 0x43] = .error .badNumber ∧
      wordToken [0x30, 0x78] = .error .badNumber := by decide

/-- `STUFF_OBJ [0x80, 1], 99` (R109). -/
theorem test_decode_stuffObj :
    decode [0x53, 0x54, 0x55, 0x46, 0x46, 0x5F, 0x4F, 0x42, 0x4A, 0x20, 0x5B, 0x30, 0x78, 0x38, 0x30, 0x2C,
      0x20, 0x31, 0x5D, 0x2C, 0x20, 0x39, 0x39] = .ok (.stuffObj [0x80, 0x01] 0x63) := by decide

/-- `E_STOP` (R109). -/
theorem test_decode_eStop :
    decode [0x45, 0x5F, 0x53, 0x54, 0x4F, 0x50] = .ok (.eStop) := by decide

/-- `E_HOME_ALL` (R109). -/
theorem test_decode_eHomeAll :
    decode [0x45, 0x5F, 0x48, 0x4F, 0x4D, 0x45, 0x5F, 0x41, 0x4C, 0x4C] = .ok (.eHomeAll) := by decide

/-- `E_MREAD` (R109). -/
theorem test_decode_eMread :
    decode [0x45, 0x5F, 0x4D, 0x52, 0x45, 0x41, 0x44] = .ok (.eMread) := by decide

/-- `E_ATC_ON` (R109). -/
theorem test_decode_eAtcOn :
    decode [0x45, 0x5F, 0x41, 0x54, 0x43, 0x5F, 0x4F, 0x4E] = .ok (.eAtcOn) := by decide

/-- `E_ATC_OFF` (R109). -/
theorem test_decode_eAtcOff :
    decode [0x45, 0x5F, 0x41, 0x54, 0x43, 0x5F, 0x4F, 0x46, 0x46] = .ok (.eAtcOff) := by decide

/-- `E_ATC_STEP` (R109). -/
theorem test_decode_eAtcStep :
    decode [0x45, 0x5F, 0x41, 0x54, 0x43, 0x5F, 0x53, 0x54, 0x45, 0x50] = .ok (.eAtcStep) := by decide

/-- `E_STUB_HOME 2` (R109). -/
theorem test_decode_eStubHome :
    decode [0x45, 0x5F, 0x53, 0x54, 0x55, 0x42, 0x5F, 0x48, 0x4F, 0x4D, 0x45, 0x20, 0x32] = .ok (.eStubHome 2) := by decide

/-- `E_PUSH_ON` (R109). -/
theorem test_decode_ePushOn :
    decode [0x45, 0x5F, 0x50, 0x55, 0x53, 0x48, 0x5F, 0x4F, 0x4E] = .ok (.ePushOn) := by decide

/-- `E_PUSH_OFF` (R109). -/
theorem test_decode_ePushOff :
    decode [0x45, 0x5F, 0x50, 0x55, 0x53, 0x48, 0x5F, 0x4F, 0x46, 0x46] = .ok (.ePushOff) := by decide

/-- `E_SET_POS 0, 513, 4000` (R109). -/
theorem test_decode_eSetPos :
    decode [0x45, 0x5F, 0x53, 0x45, 0x54, 0x5F, 0x50, 0x4F, 0x53, 0x20, 0x30, 0x2C, 0x20, 0x35, 0x31, 0x33,
      0x2C, 0x20, 0x34, 0x30, 0x30, 0x30] = .ok (.eSetPos 0 513 4000) := by decide

/-- `RD_CONFIRM` (R109). -/
theorem test_decode_rdConfirm :
    decode [0x52, 0x44, 0x5F, 0x43, 0x4F, 0x4E, 0x46, 0x49, 0x52, 0x4D] = .ok (.rdConfirm) := by decide

/-- `RD_OBJECT` (R109). -/
theorem test_decode_rdObject :
    decode [0x52, 0x44, 0x5F, 0x4F, 0x42, 0x4A, 0x45, 0x43, 0x54] = .ok (.rdObject) := by decide

/-- `RD_MOTOR` (R109). -/
theorem test_decode_rdMotor :
    decode [0x52, 0x44, 0x5F, 0x4D, 0x4F, 0x54, 0x4F, 0x52] = .ok (.rdMotor) := by decide

/-- `connect "COM3", 9600` (R109). -/
theorem test_decode_connect :
    decode [0x63, 0x6F, 0x6E, 0x6E, 0x65, 0x63, 0x74, 0x20, 0x22, 0x43, 0x4F, 0x4D, 0x33, 0x22, 0x2C, 0x20,
      0x39, 0x36, 0x30, 0x30] = .ok (.connect [0x43, 0x4F, 0x4D, 0x33] 9600) := by decide

/-- `close` (R109). -/
theorem test_decode_close :
    decode [0x63, 0x6C, 0x6F, 0x73, 0x65] = .ok (.close) := by decide

/-- `setMotorPositions 65535, 0, 1` (R109). -/
theorem test_decode_setMotorPositions :
    decode [0x73, 0x65, 0x74, 0x4D, 0x6F, 0x74, 0x6F, 0x72, 0x50, 0x6F, 0x73, 0x69, 0x74, 0x69, 0x6F, 0x6E,
      0x73, 0x20, 0x36, 0x35, 0x35, 0x33, 0x35, 0x2C, 0x20, 0x30, 0x2C, 0x20, 0x31] = .ok (.setMotorPositions
      65535 0 1) := by decide

/-- `readMotorPositions` (R109). -/
theorem test_decode_readMotorPositions :
    decode [0x72, 0x65, 0x61, 0x64, 0x4D, 0x6F, 0x74, 0x6F, 0x72, 0x50, 0x6F, 0x73, 0x69, 0x74, 0x69, 0x6F,
      0x6E, 0x73] = .ok (.readMotorPositions) := by decide

/-- `allStubsHome` (R109). -/
theorem test_decode_allStubsHome :
    decode [0x61, 0x6C, 0x6C, 0x53, 0x74, 0x75, 0x62, 0x73, 0x48, 0x6F, 0x6D, 0x65] = .ok (.allStubsHome) := by decide

/-- `hardStopMotors` (R109). -/
theorem test_decode_hardStopMotors :
    decode [0x68, 0x61, 0x72, 0x64, 0x53, 0x74, 0x6F, 0x70, 0x4D, 0x6F, 0x74, 0x6F, 0x72, 0x73] = .ok
      (.hardStopMotors) := by decide

/-- `autotuning true` (R109). -/
theorem test_decode_autotuning :
    decode [0x61, 0x75, 0x74, 0x6F, 0x74, 0x75, 0x6E, 0x69, 0x6E, 0x67, 0x20, 0x74, 0x72, 0x75, 0x65] = .ok
      (.autotuning true) := by decide

/-- `singleAutotuningStep` (R109). -/
theorem test_decode_singleAutotuningStep :
    decode [0x73, 0x69, 0x6E, 0x67, 0x6C, 0x65, 0x41, 0x75, 0x74, 0x6F, 0x74, 0x75, 0x6E, 0x69, 0x6E, 0x67,
      0x53, 0x74, 0x65, 0x70] = .ok (.singleAutotuningStep) := by decide

/-- `selectedStubHome 3` (R109). -/
theorem test_decode_selectedStubHome :
    decode [0x73, 0x65, 0x6C, 0x65, 0x63, 0x74, 0x65, 0x64, 0x53, 0x74, 0x75, 0x62, 0x48, 0x6F, 0x6D, 0x65,
      0x20, 0x33] = .ok (.selectedStubHome 3) := by decide

/-- `sendTunePositionsOnOff false` (R109). -/
theorem test_decode_sendTunePositionsOnOff :
    decode [0x73, 0x65, 0x6E, 0x64, 0x54, 0x75, 0x6E, 0x65, 0x50, 0x6F, 0x73, 0x69, 0x74, 0x69, 0x6F, 0x6E,
      0x73, 0x4F, 0x6E, 0x4F, 0x66, 0x66, 0x20, 0x66, 0x61, 0x6C, 0x73, 0x65] = .ok (.sendTunePositionsOnOff
      false) := by decide

/-- R95. -/
theorem test_decode_rxEscaped128 : decode [0x80, 0x80] = .ok (.rxEscaped128) := by decide

/-- R95. -/
theorem test_decode_rxDataBegin : decode [0x80, 0x1C] = .ok (.rxDataBegin) := by decide

/-- R95. -/
theorem test_decode_rxMdoEnd : decode [0x80, 0x10] = .ok (.rxMdoEnd) := by decide

/-- R95. -/
theorem test_decode_rxConfirm : decode [0x80, 0x04] = .ok (.rxConfirm) := by decide

/-- R95. -/
theorem test_decode_rxOtherPair : decode [0x80, 0x63] = .ok (.rxOtherPair 0x63) := by decide

/-- Refused by name: "reset" (R108), a lone 128, an unknown mnemonic, an operand out of range. -/
theorem test_decode_rejects :
    decode [0x72, 0x65, 0x73, 0x65, 0x74] = .error .resetHasNoEncoding ∧ decode [0x80] = .error .notOnePair ∧
      decode [0x45, 0x5F, 0x46, 0x4F, 0x4F] = .error .unknownMnemonic ∧
      decode [0x53, 0x54, 0x55, 0x46, 0x46, 0x5F, 0x43, 0x4D, 0x44, 0x20, 0x32, 0x35, 0x36] = .error .outOfRange := by decide

/-! ## TX frames: the words of opcode_table.json and the vectors E -/

theorem test_word_E1 : decodeTableWord 16 0x8013 = some (.eStop) := by decide

theorem test_word_E2 : decodeTableWord 16 0x8045 = some (.eHomeAll) := by decide

theorem test_word_E3 : decodeTableWord 16 0x804A = some (.eMread) := by decide

theorem test_word_E6 : decodeTableWord 72 0x801C41544320538063 = some (.eAtcStep) := by decide

theorem test_word_E11 : decodeTableWord 72 0x801C41544320548063 = some (.ePushOn) := by decide

theorem test_word_E12 : decodeTableWord 72 0x801C41544320468063 = some (.ePushOff) := by decide

theorem test_word_E7 : decodeTableWord 72 0x801C4D314820318063 = some (.eStubHome 1) := by decide

theorem test_word_E9 : decodeTableWord 72 0x801C4D314820338063 = some (.eStubHome 3) := by decide

theorem test_word_E4 : decodeTableWord 72 0x801C41544320318063 = some (.eAtcOn) := by decide

theorem test_word_E5 : decodeTableWord 72 0x801C41544320308063 = some (.eAtcOff) := by decide

/-- E10 under MS = 0x4D, with one byte after the frame. -/
theorem test_frame_E10 :
    decodeFrame parameters
      ([0x80, 0x1C, 0x4D, 0x50, 0x4F, 0x20, 0x30, 0x20, 0x35, 0x31, 0x33, 0x20, 0x34, 0x30, 0x30, 0x30, 0x0D, 0x0A] ++
        [0x80, 0x4D, 0x07]) = .ok (.eSetPos 0 513 4000, [0x07]) := by decide

/-- E4z: with the other polarity the same bytes are the other command. -/
theorem test_frame_E4z :
    decodeFrame { parameters with polarity := .zeroIsOn } [0x80, 0x1C, 0x41, 0x54, 0x43, 0x20, 0x30, 0x80, 0x63] =
      .ok (.eAtcOn, []) := by decide

/-- K14, K16: the primitive's frames. -/
theorem test_frame_K14_K16 :
    decodeFrame parameters [0x80, 0x1C, 0x80, 0x63] = .ok (.stuffObj [] 0x63, []) ∧
      decodeFrame parameters [0x80, 0x1C, 0x80, 0x80, 0x80, 0x10] = .ok (.stuffObj [0x80] 0x10, []) := by decide

/-- `withFetchWord` puts the word where the next step runs it. -/
theorem test_withFetchWord :
    retOf (step (fresh.withFetchWord 16 0x8013)) = some (.frame [0x80, 0x13]) := by decide

/-! ## The codec and the operand forms: vectors K and E17 -/

theorem test_escape_K4_K5 :
    escape [0x7F, 0x80, 0x81] = [0x7F, 0x80, 0x80, 0x81] ∧
      escape [0x04, 0x10, 0x1C, 0x63] = [0x04, 0x10, 0x1C, 0x63] := by decide

theorem test_unescape_K7_to_K10 :
    unescape [0x10, 0x80, 0x80] = some [0x10, 0x80] ∧ unescape [0x80] = none ∧ unescape [0x80, 0x10] = none ∧
      unescape [0x80, 0x80, 0x80] = none := by decide

theorem test_controlPair_K20 :
    firstControlPair 2 [0x80, 0x80, 0x80, 0x80, 0x80, 0x63] = some (6, 0x63) := by decide

theorem test_dec_E17 :
    dec 0 = [0x30] ∧ dec 7 = [0x37] ∧ dec 10 = [0x31, 0x30] ∧ dec 65535 = [0x36, 0x35, 0x35, 0x33, 0x35] := by decide

theorem test_LE16_W2 : LE16 0 0 = 0 ∧ LE16 1 2 = 513 ∧ LE16 160 15 = 4000 := by decide

theorem test_numbers : ([ErrCode.notConnected, .transportError, .timeout, .invalidArgument, .protocolDesync].map errNumber,
    [PState.idle, .sync, .classify, .payload, .pmark].map stCode, [ReadKind.confirm, .object, .motor].map kindCode,
    [Conn.disconnected, .connected].map connCode) = ([1, 2, 3, 4, 5], [0, 1, 2, 3, 4], [0, 1, 2], [0, 1]) := by decide

/-! ## One step of each instruction -/

/-- K11 and K12. -/
theorem test_stuffCmd :
    retOf (exec (.stuffCmd 0x13) fresh) = some (.frame [0x80, 0x13]) ∧
      retOf (exec (.stuffCmd 0x80) fresh) = some (.error .invalidArgument) := by decide

/-- K17 and K18. -/
theorem test_stuffObj :
    retOf (exec (.stuffObj [0x80, 0x80] 0x63) fresh) = some (.frame [0x80, 0x1C, 0x80, 0x80, 0x80, 0x80, 0x80, 0x63]) ∧
      retOf (exec (.stuffObj [0x01] 0x80) fresh) = some (.error .invalidArgument) := by decide

/-- E1. -/
theorem test_eStop :
    retOf (exec .eStop fresh) = some (.frame [0x80, 0x13]) := by decide

/-- E2. -/
theorem test_eHomeAll :
    retOf (exec .eHomeAll fresh) = some (.frame [0x80, 0x45]) := by decide

/-- E3. -/
theorem test_eMread :
    retOf (exec .eMread fresh) = some (.frame [0x80, 0x4A]) := by decide

/-- E4. -/
theorem test_eAtcOn :
    retOf (exec .eAtcOn fresh) = some (.frame [0x80, 0x1C, 0x41, 0x54, 0x43, 0x20, 0x31, 0x80, 0x63]) := by decide

/-- E5. -/
theorem test_eAtcOff :
    retOf (exec .eAtcOff fresh) = some (.frame [0x80, 0x1C, 0x41, 0x54, 0x43, 0x20, 0x30, 0x80, 0x63]) := by decide

/-- E6. -/
theorem test_eAtcStep :
    retOf (exec .eAtcStep fresh) = some (.frame [0x80, 0x1C, 0x41, 0x54, 0x43, 0x20, 0x53, 0x80, 0x63]) := by decide

/-- E8 and E9a. -/
theorem test_eStubHome :
    retOf (exec (.eStubHome 2) fresh) = some (.frame [0x80, 0x1C, 0x4D, 0x31, 0x48, 0x20, 0x32, 0x80, 0x63]) ∧
      retOf (exec (.eStubHome 0) fresh) = some (.error .invalidArgument) := by decide

/-- E11. -/
theorem test_ePushOn :
    retOf (exec .ePushOn fresh) = some (.frame [0x80, 0x1C, 0x41, 0x54, 0x43, 0x20, 0x54, 0x80, 0x63]) := by decide

/-- E12. -/
theorem test_ePushOff :
    retOf (exec .ePushOff fresh) = some (.frame [0x80, 0x1C, 0x41, 0x54, 0x43, 0x20, 0x46, 0x80, 0x63]) := by decide

/-- E15: the value 128 is text. -/
theorem test_eSetPos :
    retOf (exec (.eSetPos 128 128 128) fresh) = some (.frame
      ([0x80, 0x1C, 0x4D, 0x50, 0x4F, 0x20, 0x31, 0x32, 0x38, 0x20, 0x31, 0x32, 0x38, 0x20, 0x31, 0x32, 0x38] ++
        [0x0D, 0x0A, 0x80, 0x4D])) := by decide

/-- R185 inside an object, R179 outside. -/
theorem test_rxEscaped128 :
    (nextOf (exec .rxEscaped128 (reading .object .payload []))).map State.buf = some [0x80] ∧
      exec .rxEscaped128 (reading .confirm .sync []) = .next (reading .confirm .sync []) := ⟨by decide, rfl⟩

/-- R181 and, in a confirmation read, R180. -/
theorem test_rxDataBegin :
    (nextOf (exec .rxDataBegin (reading .object .sync []))).map State.st = some .payload ∧
      (nextOf (exec .rxDataBegin (reading .confirm .sync []))).map State.st = some .sync := by decide

/-- R188, P14. -/
theorem test_rxMdoEnd :
    resOf (exec .rxMdoEnd (reading .object .payload [])) = some (.okObject []) ∧
      (nextOf (exec .rxMdoEnd (reading .object .sync []))).map State.rcnt = some 1 := by decide

/-- R180, and R181 with the bound of P12r. -/
theorem test_rxConfirm :
    resOf (exec .rxConfirm (reading .confirm .sync [])) = some .okConfirm ∧
      resOf (exec .rxConfirm { reading .object .sync [] with params := { parameters with maxResync := some 0 } }) =
        some (.err .protocolDesync) := by decide

/-- R187: the object is abandoned. -/
theorem test_rxOtherPair :
    (nextOf (exec (.rxOtherPair 0x63) { reading .object .payload [] with buf := [0x01] })).map
      (fun s => (s.st, s.buf, s.rcnt)) = some (.sync, [], 1) := by decide

/-- R174. -/
theorem test_rdConfirm :
    (nextOf (exec .rdConfirm { fresh with rcnt := 3 })).map (fun s => (s.st, s.kind, s.rcnt)) =
      some (.sync, .confirm, 0) := by decide

/-- R174. -/
theorem test_rdObject :
    (nextOf (exec .rdObject fresh)).map (fun s => (s.st, s.kind, s.res)) = some (.sync, .object, .none) := by decide

/-- R174. -/
theorem test_rdMotor :
    (nextOf (exec .rdMotor fresh)).map (fun s => (s.st, s.kind)) = some (.sync, .motor) := by decide

/-- T11. -/
theorem test_connect_T11 :
    (nextOf (exec (.connect [0x43] 9600) { linked with openDraws := [true], continuousOff := true })).map
      (fun s => (s.conn, s.continuousOff, s.res, s.calls)) =
      some (.connected, false, .ok, [.closeLink, .openLink [0x43] 9600]) := by decide

/-- T10. -/
theorem test_connect_T10 :
    (nextOf (exec (.connect [0x43] 9600) { fresh with openDraws := [false] })).map (fun s => (s.conn, s.res)) =
      some (.disconnected, .err .transportError) := by decide

/-- T12, and PR4. -/
theorem test_close :
    resOf (exec .close fresh) = some .ok ∧
      (nextOf (exec .close linked)).map (fun s => (s.conn, s.calls)) = some (.disconnected, [.closeLink]) := by decide

/-- E16 as the frame that is sent. -/
theorem test_setMotorPositions :
    txOf (exec (.setMotorPositions 1 22 333) linked) =
      some [0x80, 0x1C, 0x4D, 0x50, 0x4F, 0x20, 0x31, 0x20, 0x32, 0x32, 0x20, 0x33, 0x33, 0x33, 0x0D, 0x0A, 0x80, 0x4D] := by decide

/-- T15 up to its write, and T1. -/
theorem test_readMotorPositions :
    txOf (exec .readMotorPositions linked) = some [0x80, 0x4A] ∧
      resOf (exec .readMotorPositions fresh) = some (.err .notConnected) := by decide

/-- T6, and T7 with one byte sent. -/
theorem test_allStubsHome :
    txOf (exec .allStubsHome linked) = some [0x80, 0x45] ∧
      (nextOf (exec .allStubsHome { linked with writeDraws := [.fail 1] })).map (fun s => (s.tx, s.res, s.st)) =
        some ([0x80], .err .transportError, .idle) := by decide

/-- T5. -/
theorem test_hardStopMotors :
    (nextOf (exec .hardStopMotors { linked with rx := bytesIn [0x80, 0x04] })).map
      (fun s => (s.tx, s.res, s.rx, s.busy)) = some ([0x80, 0x13], .ok, bytesIn [0x80, 0x04], false) := by decide

/-- T8: cleared before the write. -/
theorem test_autotuning_T8 :
    (nextOf (exec (.autotuning true) { linked with continuousOff := true })).map (fun s => (s.tx, s.continuousOff)) =
      some ([0x80, 0x1C, 0x41, 0x54, 0x43, 0x20, 0x31, 0x80, 0x63], false) := by decide

/-- R226: set when the acknowledgement has been read. -/
theorem test_autotuning_off :
    (nextOf (step { linked with busy := true, cur := some (.autotuning false), res := .okConfirm })).map
      (fun s => (s.continuousOff, s.res, s.busy)) = some (true, .ok, false) := by decide

/-- T4, and PR2. -/
theorem test_singleAutotuningStep :
    resOf (exec .singleAutotuningStep linked) = some (.err .invalidArgument) ∧
      txOf (exec .singleAutotuningStep { linked with continuousOff := true }) =
        some [0x80, 0x1C, 0x41, 0x54, 0x43, 0x20, 0x53, 0x80, 0x63] := by decide

/-- T2 and T3. -/
theorem test_selectedStubHome :
    resOf (exec (.selectedStubHome 4) fresh) = some (.err .notConnected) ∧
      resOf (exec (.selectedStubHome 4) linked) = some (.err .invalidArgument) := by decide

/-- T13 up to its write. -/
theorem test_sendTunePositionsOnOff :
    (nextOf (exec (.sendTunePositionsOnOff false) { linked with params := { parameters with ack := .object } })).map
      (fun s => (s.tx, s.kind)) = some ([0x80, 0x1C, 0x41, 0x54, 0x43, 0x20, 0x46, 0x80, 0x63], .object) := by decide

/-! ## The parser: single events of the vectors P -/

theorem test_escapedPair_P2 :
    (nextOf (step (reading .confirm .classify (bytesIn [0x80])))).map State.st = some .sync := by decide

theorem test_timeout_P13 :
    (nextOf (step { reading .object .payload [.timeout] with buf := [0x01, 0x02] })).map (fun s => (s.res, s.buf)) =
      some (.err .timeout, []) := by decide

theorem test_rxError_P17 :
    resOf (step { reading .object .payload [.rxError] with buf := [0x01] }) = some (.err .transportError) := by decide

/-- P11 and P11a, with a capacity of 7: the byte after the last free place. -/
theorem test_capacity_P11 :
    resOf (step { reading .object .payload (bytesIn [0x01]) with
      params := { parameters with maxPayload := 7 }, buf := [1, 2, 3, 4, 5, 6, 7] }) = some (.err .protocolDesync) ∧
    (nextOf (step { reading .object .payload (bytesIn [0x01]) with
      params := { parameters with maxPayload := 7 }, buf := [1, 2, 3, 4, 5, 6] })).map State.buf =
        some [1, 2, 3, 4, 5, 6, 1] := by decide

theorem test_motor_P5 :
    resOf (step { reading .motor .pmark (bytesIn [0x10]) with buf := [48, 0, 0, 1, 2, 160, 15, 119, 0, 89] }) =
      some (.okMotor 48 0 513 4000 true) := by decide

theorem test_motor_P10 :
    resOf (step { reading .motor .pmark (bytesIn [0x10]) with buf := [0x10, 0xFF, 0xFF, 0, 0, 0x80, 0] }) =
      some (.okMotor 0x10 65535 0 128 false) := by decide

theorem test_motor_P9 :
    resOf (step { reading .motor .pmark (bytesIn [0x10]) with buf := [0x30, 1, 2, 3, 4, 5] }) =
      some (.err .protocolDesync) := by decide

/-- P20 and P21: bit 2 set, and nine bytes. -/
theorem test_shape_P20_P21 :
    shapeVerified [0x34, 0, 0, 1, 2, 0xA0, 0x0F, 0x77, 0, 0x59] = false ∧
      shapeVerified [0x30, 0, 0, 1, 2, 0xA0, 0x0F, 0x77, 0] = false := by decide

theorem test_restart_P8 :
    (nextOf (step { reading .object .pmark (bytesIn [0x1C]) with buf := [0x01] })).map
      (fun s => (s.st, s.buf, s.rcnt)) = some (.payload, [], 1) := by decide

theorem test_resyncBound_P12r :
    (nextOf (step { reading .object .classify (bytesIn [0x10]) with
      params := { parameters with maxResync := some 0 } })).map (fun s => (s.res, s.rcnt)) =
      some (.err .protocolDesync, 1) := by decide

/-- R82 (c): two pairs that arrive while no read is active stand in the backlog in the order of their arrival. -/
theorem test_arrivalOrder_R82 :
    (nextOf (andThen (exec .rxDataBegin fresh) (exec .rxMdoEnd))).map State.rx =
      some (bytesIn [0x80, 0x1C, 0x80, 0x10]) := by decide

/-- R74: a pair in an active read does not overtake the byte that arrived before it, here the marker that it makes a pair of. -/
theorem test_arrivalOrder_R74 :
    (nextOf (exec .rxConfirm (reading .confirm .sync (bytesIn [0x80])))).map (fun t => (t.st, t.res, t.rx)) =
      some (.sync, .none, []) := by decide

/-- R258, and the refusal while a read runs on its own (log 10). -/
theorem test_refusals :
    exec .close { fresh with busy := true } = .refused .busy ∧
      exec .close (reading .object .sync []) = .refused .readActive := ⟨rfl, rfl⟩

/-! ## Witnesses: for every statement with hypotheses, a state and operands that meet them all -/

/-- An idle host keeps its duty. -/
theorem hostWaits_nil {s : State} (h : s.port = []) : hostWaits s := by
  simp [hostWaits, h]

/-- A motor transaction whose read has just started. -/
def started : State :=
  { linked with busy := true, cur := some .readPositions, kind := .motor, st := .sync, writeDraws := [] }

/-- A transaction `x` whose read has ended with `r`. -/
def ended (x : Txn) (k : ReadKind) (r : Result) : State :=
  { linked with busy := true, cur := some x, kind := k, res := r }

/-- The motor-position response of W2. -/
def response : List Byte := [128, 28, 48, 0, 0, 1, 2, 160, 15, 119, 0, 89, 128, 16]

/-! Codec and decoder -/

theorem witness_EscapeAndUnescapeAreInverse : unescape [0x10, 0x80, 0x80] = some [0x10, 0x80] := by decide

theorem witness_FirstControlPairClosesTheObject :
    stuffObjFrame [0x80, 0x80] 0x63 = .ok [0x80, 0x1C, 0x80, 0x80, 0x80, 0x80, 0x80, 0x63] ∧
      stuffObjFrame [] 0x1C = .ok [0x80, 0x1C, 0x80, 0x1C] := by decide

theorem witness_DecodeReadsBackEveryInstruction :
    (Instr.rxOtherPair 0xFF).spellable = true ∧ (Instr.connect [0x43] 9600).spellable = true ∧
      (Instr.stuffObj [0x80] 0x80).spellable = true := by decide

theorem witness_FramesDecodeToTheirCommand :
    parameters.wf = true ∧ frameOf parameters (.eStubHome 3) = some (.ok [0x80, 0x1C, 0x4D, 0x31, 0x48, 0x20, 0x33, 0x80, 0x63]) ∧
      (∀ op, Instr.eStubHome 3 ≠ .stuffCmd op) ∧ (∀ payload e, Instr.eStubHome 3 ≠ .stuffObj payload e) ∧
      stuffObjFrame [0x80] 0x10 = .ok [0x80, 0x1C, 0x80, 0x80, 0x80, 0x10] :=
  ⟨by decide, by decide, by simp, by simp, by decide⟩

theorem witness_DecodedInstructionsAreWellFormed : decode [0x80, 0x05] = .ok (.rxOtherPair 0x05) := by decide

/-! The pure operations -/

theorem witness_StuffCmdReturnsItsFrame : fresh.busy = false ∧ fresh.st = .idle := by decide

theorem witness_StuffObjReturnsItsFrame : linked.busy = false ∧ linked.st = .idle := by decide

theorem witness_SimpleCommandsReturnTheirFrames : fresh.busy = false ∧ fresh.st = .idle := by decide

theorem witness_AutotuneCommandsReturnTheirFrames :
    fresh.busy = false ∧ fresh.st = .idle ∧ fresh.params.polarity = .oneIsOn := by decide

theorem witness_StubHomeAndPushReturnTheirFrames : fresh.busy = false ∧ fresh.st = .idle := by decide

theorem witness_SetPosReturnsItsUnstuffedFrame :
    fresh.params.wf = true ∧ fresh.busy = false ∧ fresh.st = .idle := by decide

theorem witness_PureOperationsDependOnTheirOperandsOnly :
    frameOf fresh.params (.eSetPos 0 513 4000) ≠ none ∧ fresh.params = linked.params ∧ fresh ≠ linked ∧
      fresh.busy = false ∧ fresh.st = .idle ∧ linked.busy = false ∧ linked.st = .idle := by decide

/-! The step -/

/-- A waiting request at a ready block, one that does not wait at a busy block, and a word of the table. -/
theorem witness_StepRunsTheArrivingRequest :
    (ready { fresh with port := [⟨.close, true⟩] } = true ∧ Instr.close.wellFormed = true) ∧
      (ready { started with port := [⟨.close, false⟩] } = false) ∧
      decodeTableWord 16 0x8063 = some (.stuffCmd 0x63) ∧ (Instr.stuffCmd 0x63).wellFormed = true := by decide

theorem witness_IdleBlockWaits : fresh.port = [] ∧ fresh.busy = false ∧ fresh.st = .idle := by decide

/-- With a listed event and with none. -/
theorem witness_ActiveReadTakesOneEvent :
    hostWaits (reading .object .sync (bytesIn [0x80])) ∧ (reading .object .sync (bytesIn [0x80])).st ≠ .idle ∧
      hostWaits (reading .object .pmark []) ∧ (reading .object .pmark []).st ≠ .idle ∧
      (reading .object .pmark []).rx = [] :=
  ⟨hostWaits_nil rfl, by decide, hostWaits_nil rfl, by decide, rfl⟩

theorem witness_OperationsInProgressRefuseRequests :
    rxPairCode .close = none ∧ started.busy = true ∧ (reading .object .sync []).busy = false ∧
      (reading .object .sync []).st ≠ .idle := by decide

/-! The parser's transitions -/

theorem witness_TimeoutAndRxErrorEndTheRead :
    hostWaits (reading .confirm .sync [.timeout]) ∧ (reading .confirm .sync [.timeout]).st ≠ .idle ∧
      hostWaits (reading .motor .pmark [.rxError]) ∧ (reading .motor .pmark [.rxError]).st ≠ .idle :=
  ⟨hostWaits_nil rfl, by decide, hostWaits_nil rfl, by decide⟩

/-- Each clause, and the third one on 4 and beside it. -/
theorem witness_ScanningOutsideAnObject :
    hostWaits (reading .motor .sync (bytesIn [0x80])) ∧ hostWaits (reading .confirm .classify (bytesIn [0x04])) ∧
      (reading .confirm .classify (bytesIn [0x04])).kind = .confirm ∧
      (reading .confirm .classify (bytesIn [0x05])).rx = .byte 0x05 :: [] ∧
      (reading .object .classify (bytesIn [0x80])).rx = .byte 128 :: [] :=
  ⟨hostWaits_nil rfl, hostWaits_nil rfl, rfl, rfl, rfl⟩

/-- Each clause: the code of DATA_BEGIN and one beside it; no bound, a bound of 0 that the first event exceeds, and a bound
of 1 that it does not. -/
theorem witness_ClassifyInObjectRead :
    hostWaits (reading .object .classify (bytesIn [0x1C])) ∧
      (reading .object .classify (bytesIn [0x1C])).rx = .byte 0x1C :: [] ∧
      (reading .motor .classify (bytesIn [0x10])).kind ≠ .confirm ∧ (0x10 : Byte) ≠ 128 ∧ (0x10 : Byte) ≠ 28 ∧
      parameters.maxResync = none ∧ 0 < (reading .motor .classify (bytesIn [0x10])).rcnt + 1 ∧
      ¬1 < (reading .motor .classify (bytesIn [0x10])).rcnt + 1 :=
  ⟨hostWaits_nil rfl, rfl, by decide, by decide, by decide, rfl, by decide, by decide⟩

theorem witness_PayloadBytesAreCollected :
    hostWaits (reading .object .payload (bytesIn [0x10])) ∧
      (reading .object .payload (bytesIn [0x10])).st = .payload ∧
      (reading .object .payload (bytesIn [0x10])).rx = .byte 0x10 :: [] :=
  ⟨hostWaits_nil rfl, rfl, rfl⟩

/-- Each clause: a second 128, and DATA_BEGIN with no bound, a bound it exceeds and one it does not. -/
theorem witness_MarkedBytesInsideAnObject :
    hostWaits (reading .object .pmark (bytesIn [0x80])) ∧ (reading .object .pmark (bytesIn [0x80])).st = .pmark ∧
      (reading .object .pmark (bytesIn [0x80])).rx = .byte 0x80 :: [] ∧ (0x80 : Byte) ≠ 16 ∧
      (reading .object .pmark (bytesIn [0x1C])).rx = .byte 0x1C :: [] ∧ (0x1C : Byte) ≠ 128 ∧
      parameters.maxResync = none ∧ 0 < (reading .object .pmark (bytesIn [0x1C])).rcnt + 1 ∧
      ¬1 < (reading .object .pmark (bytesIn [0x1C])).rcnt + 1 :=
  ⟨hostWaits_nil rfl, rfl, rfl, by decide, rfl, by decide, rfl, by decide, by decide⟩

/-- Each clause: an object, a motor payload of six bytes, and one of seven. -/
theorem witness_MdoEndCompletesTheObject :
    hostWaits (reading .object .pmark (bytesIn [16])) ∧ (reading .object .pmark (bytesIn [16])).kind = .object ∧
      (reading .motor .pmark (bytesIn [16])).kind = .motor ∧
      ({ reading .motor .pmark (bytesIn [16]) with buf := [1, 2, 3, 4, 5, 6] }).buf.length < 7 ∧
      ({ reading .motor .pmark (bytesIn [16]) with buf := [1, 2, 3, 4, 5, 6, 7] }).buf =
        1 :: 2 :: 3 :: 4 :: 5 :: 6 :: 7 :: [] :=
  ⟨hostWaits_nil rfl, rfl, rfl, by decide, rfl⟩

theorem witness_ConfirmationReadNeverDesyncs :
    hostWaits (reading .confirm .classify (bytesIn [0x10])) ∧
      step (reading .confirm .classify (bytesIn [0x10])) = .next (reading .confirm .sync []) ∧
      (nextOf (step (reading .confirm .sync [.timeout]))).isSome = true :=
  ⟨hostWaits_nil rfl, rfl, by decide⟩

/-! The control pairs -/

theorem witness_PairsInAConfirmationRead :
    (reading .confirm .sync []).rx = [] ∧ (reading .confirm .sync []).st = .sync ∧ (reading .confirm .sync []).kind = .confirm ∧
      (Instr.rxOtherPair 0x00).wellFormed = true := by decide

/-- With no bound on resync events, with one that the pair exceeds, and with one that it does not. -/
theorem witness_PairsOutsideAnObject :
    (reading .object .sync []).rx = [] ∧ (reading .object .sync []).st = .sync ∧
      (reading .object .sync []).kind ≠ .confirm ∧ (Instr.rxOtherPair 0xFF).wellFormed = true ∧
      parameters.maxResync = none ∧ 0 < (reading .object .sync []).rcnt + 1 ∧
      ¬1 < (reading .object .sync []).rcnt + 1 := by decide

/-- With room in the buffer and with none. -/
theorem witness_PairsInsideAnObject :
    (reading .motor .payload []).rx = [] ∧ (reading .motor .payload []).st = .payload ∧ (reading .motor .payload []).kind ≠ .confirm ∧
      (Instr.rxOtherPair 0x05).wellFormed = true ∧ (reading .motor .payload []).buf.length ≠ parameters.maxPayload ∧
      ({ reading .object .payload [] with buf := List.replicate 64 1 }).buf.length = parameters.maxPayload := by decide

theorem witness_PairsWaitWhileNoReadIsActive : fresh.st = .idle ∧ rxPairCode .rxConfirm = some 4 := by decide

/-- A read that an older event ends before the pair, one that takes both, and no read at all. -/
theorem witness_PairInstructionIsTheParsersSteps :
    hostWaits (reading .object .payload [.timeout]) ∧ hostWaits (reading .confirm .sync (bytesIn [0x01])) ∧
      hostWaits { fresh with rx := bytesIn [0x01] } ∧
      (nextOf (exec .rxConfirm (reading .object .payload [.timeout]))).map (fun t => (t.st, t.rx)) =
        some (.idle, bytesIn [0x80, 0x04]) ∧
      (nextOf (exec .rxConfirm (reading .confirm .sync (bytesIn [0x01])))).map (fun t => (t.res, t.rx)) =
        some (.okConfirm, []) :=
  ⟨hostWaits_nil rfl, hostWaits_nil rfl, hostWaits_nil rfl, by decide, by decide⟩

/-! The reads -/

theorem witness_ReadsStart : linked.busy = false ∧ linked.st = .idle := by decide

/-- A payload of 64 bytes fits, one of 65 does not. -/
theorem witness_ObjectReadReturnsThePayload :
    hostWaits { fresh with rx := bytesIn [0x80, 0x1C, 0x80, 0x10] } ∧ fresh.busy = false ∧ fresh.st = .idle ∧
      stuffObjFrame [] 16 = .ok [0x80, 0x1C, 0x80, 0x10] ∧
      ({ fresh with rx := bytesIn [0x80, 0x1C, 0x80, 0x10] }).rx = bytesIn [0x80, 0x1C, 0x80, 0x10] ++ [] ∧
      (List.replicate 64 (1 : Byte)).length ≤ fresh.params.maxPayload ∧
      fresh.params.maxPayload < (List.replicate 65 (1 : Byte)).length :=
  ⟨hostWaits_nil rfl, rfl, rfl, by decide, rfl, by decide, by decide⟩

/-- W2, and a payload of seven bytes. -/
theorem witness_MotorReadReturnsThePositions :
    hostWaits { fresh with rx := bytesIn response } ∧
      stuffObjFrame [48, 0, 0, 1, 2, 160, 15, 119, 0, 89] 16 = .ok response ∧
      ({ fresh with rx := bytesIn response }).rx = bytesIn response ++ [] ∧
      7 + ([119, 0, 89] : List Byte).length ≤ fresh.params.maxPayload ∧
      7 + ([] : List Byte).length ≤ fresh.params.maxPayload :=
  ⟨hostWaits_nil rfl, by decide, rfl, by decide, by decide⟩

/-- P3b: an object that holds an escaped 128 and a 4 is skipped, and so is nothing at all. -/
theorem witness_ConfirmationReadSkipsToTheConfirmation :
    hostWaits { fresh with rx := bytesIn [0x80, 0x1C, 0x80, 0x80, 0x04, 0x80, 0x10, 0x80, 0x04] } ∧
      skippedByConfirm [0x80, 0x1C, 0x80, 0x80, 0x04, 0x80, 0x10] = true ∧ skippedByConfirm [] = true ∧
      skippedByConfirm [0x80, 0x04] = false ∧ skippedByConfirm [0x80] = false ∧
      ({ fresh with rx := bytesIn [0x80, 0x1C, 0x80, 0x80, 0x04, 0x80, 0x10, 0x80, 0x04] }).rx =
        bytesIn ([0x80, 0x1C, 0x80, 0x80, 0x04, 0x80, 0x10] ++ [128, 4]) ++ [] :=
  ⟨hostWaits_nil rfl, by decide, by decide, by decide, by decide, rfl⟩

/-- Noise with an escaped pair before W2, and noise whose last 128 is unpaired, which is left out. -/
theorem witness_LeadingNoiseIsTolerated :
    hostWaits { fresh with rx := bytesIn ([0x04, 0x80, 0x80, 0x10] ++ response) } ∧
      unescape [0x04, 0x80, 0x80, 0x10] ≠ none ∧ unescape [0x04, 0x80] = none ∧
      stuffObjFrame [48, 0, 0, 1, 2, 160, 15, 119, 0, 89] 16 = .ok response ∧
      ([48, 0, 0, 1, 2, 160, 15, 119, 0, 89] : List Byte).length ≤ fresh.params.maxPayload ∧
      ({ fresh with rx := bytesIn ([0x04, 0x80, 0x80, 0x10] ++ response) }).rx =
        bytesIn ([0x04, 0x80, 0x80, 0x10] ++ response) ++ [] :=
  ⟨hostWaits_nil rfl, by decide, by decide, by decide, by decide, rfl⟩

/-! Transactions -/

theorem witness_DisconnectedOperationsWriteNothing :
    fresh.busy = false ∧ fresh.st = .idle ∧ fresh.conn = .disconnected := by decide

/-- Both clauses, the first one at the two neighbours of the domain. -/
theorem witness_BadArgumentsWriteNothing :
    linked.busy = false ∧ linked.st = .idle ∧ linked.conn = .connected ∧ linked.continuousOff = false ∧
      isStub 0 = false ∧ isStub 4 = false ∧ isStub 1 = true ∧ isStub 3 = true := by decide

theorem witness_ConnectOpensOrFails :
    (drawOpen { fresh with openDraws := [true] }).1 = true ∧ (drawOpen { linked with openDraws := [false] }).1 = false ∧
      linked.busy = false ∧ linked.st = .idle := by decide

theorem witness_CloseDisconnects : linked.busy = false ∧ linked.st = .idle ∧ linked.conn = .connected := by decide

theorem witness_MotorTransactionsWriteAndRead :
    linked.params.wf = true ∧ linked.busy = false ∧ linked.st = .idle ∧ linked.conn = .connected ∧
      (drawWrite linked).1 = .ok := by decide

theorem witness_AcknowledgedTransactionsWriteAndRead :
    ({ linked with continuousOff := true }).continuousOff = true ∧ linked.busy = false ∧ linked.st = .idle ∧
      linked.conn = .connected ∧ (drawWrite { linked with continuousOff := true }).1 = .ok := by decide

theorem witness_HardStopWritesAndEnds :
    linked.busy = false ∧ linked.st = .idle ∧ linked.conn = .connected ∧ (drawWrite linked).1 = .ok := by decide

/-- A single step whose write fails after three bytes, and one that fails before the first. -/
theorem witness_FailedWriteSendsAPrefix :
    (drawWrite { linked with writeDraws := [.fail 3], continuousOff := true }).1 = .fail 3 ∧
      (drawWrite { linked with writeDraws := [.fail 0] }).1 = .fail 0 ∧
      encoderCommandOf .singleAutotuningStep = some .eAtcStep ∧
      frameOf linked.params .eAtcStep = some (.ok [0x80, 0x1C, 0x41, 0x54, 0x43, 0x20, 0x53, 0x80, 0x63]) := by decide

/-- Each clause: an error, a motor result, a confirmation and an object. -/
theorem witness_EndOfTransaction :
    hostWaits (ended .homeAll .confirm (.err .timeout)) ∧
      hostWaits (ended .readPositions .motor (.okMotor 48 0 513 4000 true)) ∧
      hostWaits (ended (.autotuning false) .confirm .okConfirm) ∧ hostWaits (ended .setPositions .object (.okObject [])) ∧
      (ended .homeAll .confirm (.err .timeout)).busy = true ∧ (ended .homeAll .confirm (.err .timeout)).st = .idle :=
  ⟨hostWaits_nil rfl, hostWaits_nil rfl, hostWaits_nil rfl, hostWaits_nil rfl, rfl, rfl⟩

/-- W3. -/
theorem witness_SetMotorPositionsRunsToOk :
    linked.params.wf = true ∧ hostWaits { linked with rx := bytesIn response } ∧ linked.conn = .connected ∧
      (drawWrite { linked with rx := bytesIn response }).1 = .ok ∧
      stuffObjFrame [48, 0, 0, 1, 2, 160, 15, 119, 0, 89] 16 = .ok response ∧
      ([48, 0, 0, 1, 2, 160, 15, 119, 0, 89] : List Byte).length ≤ linked.params.maxPayload ∧
      ({ linked with rx := bytesIn response }).rx = bytesIn response ++ [] :=
  ⟨by decide, hostWaits_nil rfl, rfl, by decide, by decide, by decide, rfl⟩

/-- W2. -/
theorem witness_ReadMotorPositionsRunsToThePositions :
    hostWaits { linked with rx := bytesIn response } ∧ linked.busy = false ∧ linked.st = .idle ∧
      linked.conn = .connected ∧ (drawWrite { linked with rx := bytesIn response }).1 = .ok ∧
      stuffObjFrame [48, 0, 0, 1, 2, 160, 15, 119, 0, 89] 16 = .ok response ∧
      7 + ([119, 0, 89] : List Byte).length ≤ linked.params.maxPayload ∧
      ({ linked with rx := bytesIn response }).rx = bytesIn response ++ [] :=
  ⟨hostWaits_nil rfl, rfl, rfl, rfl, by decide, by decide, by decide, rfl⟩

/-- T6. -/
theorem witness_AllStubsHomeRunsToOk :
    hostWaits { linked with rx := bytesIn [128, 4] } ∧ linked.busy = false ∧ linked.st = .idle ∧
      linked.conn = .connected ∧ (drawWrite { linked with rx := bytesIn [128, 4] }).1 = .ok ∧
      skippedByConfirm [] = true ∧ ({ linked with rx := bytesIn [128, 4] }).rx = bytesIn ([] ++ [128, 4]) ++ [] :=
  ⟨hostWaits_nil rfl, rfl, rfl, rfl, by decide, by decide, rfl⟩

/-! The whole machine -/

theorem witness_InvariantHoldsAtReset : parameters.wf = true ∧ ({ parameters with maxPayload := 6 }).wf = false := by
  decide

/-- The invariant holds in the middle of a transaction too, whatever is in the backlog. -/
theorem started_inv (rx : List RxEvent) : Inv { started with rx := rx } := by
  constructor <;>
    simp [started, linked, fresh, parameters, State.instantiate, Params.wf, overResync, readOf]

theorem witness_StepsKeepTheInvariant : Inv { started with rx := bytesIn [0x80] } ∧ ∃ t, step { started with rx := bytesIn [0x80] } = .next t :=
  ⟨started_inv _, _, rfl⟩

/-- A request that does not wait is refused; without it the step goes on. -/
theorem witness_NoStepFaults :
    Inv started ∧ step { started with port := [⟨.close, false⟩] } = .refused .busy :=
  ⟨started_inv [], rfl⟩

theorem witness_TxIsAppendOnly :
    txOf (step { linked with port := [⟨.hardStopMotors, true⟩] }) = some [0x80, 0x13] := by decide

theorem witness_ParametersNeverChange : step fresh = .next fresh := rfl

theorem witness_OnlyConnectAndCloseChangeTheConnection :
    (nextOf (step { linked with port := [⟨.close, true⟩] })).map State.conn = some .disconnected ∧
      linked.conn ≠ .disconnected := by decide

/-- Each of the two clauses. -/
theorem witness_OnlyThreeWritersOfContinuousOff :
    (nextOf (step (ended (.autotuning false) .confirm .okConfirm))).map State.continuousOff = some true ∧
      (ended (.autotuning false) .confirm .okConfirm).continuousOff = false ∧
      (nextOf (step { linked with continuousOff := true, port := [⟨.autotuning true, true⟩] })).map
        State.continuousOff = some false := by decide

theorem witness_ResultKeepsUntilTheNextTransaction :
    ready { fresh with port := [⟨.readMotorPositions, true⟩] } = true ∧
      resOf (step { fresh with port := [⟨.readMotorPositions, true⟩] }) = some (.err .notConnected) ∧
      fresh.res ≠ .err .notConnected := by decide

/-- An event taken; a pair behind an older event of an idle block; and a pair in a read that an older event ends. -/
theorem witness_BacklogIsOnlyConsumedByAnActiveRead :
    (nextOf (step (reading .object .sync (bytesIn [0x01, 0x02])))).map State.rx = some (bytesIn [0x02]) ∧
      (nextOf (step { fresh with rx := [.timeout], port := [⟨.rxConfirm, true⟩] })).map State.rx =
        some [.timeout, .byte 0x80, .byte 0x04] ∧
      (nextOf (step { reading .confirm .sync [.timeout] with port := [⟨.rxConfirm, false⟩] })).map State.rx =
        some [.byte 0x80, .byte 0x04] := by decide

/-- The invariant of a home-all whose read timed out. -/
theorem ended_inv : Inv (ended .homeAll .confirm (.err .timeout)) := by
  constructor <;>
    simp [ended, linked, fresh, parameters, State.instantiate, Params.wf, overResync, readOf]

/-- Each clause: a motor read of a transaction that times out, and a home-all whose read has timed out. -/
theorem witness_ReadErrorsLeaveTheBlockReady :
    Inv { started with rx := [.timeout] } ∧ started.st ≠ .idle ∧ fetch { started with rx := [.timeout] } = .waiting ∧
      (nextOf (step { started with rx := [.timeout] })).map (fun t => (t.st, t.res)) = some (.idle, .err .timeout) ∧
      Inv (ended .homeAll .confirm (.err .timeout)) ∧ (ended .homeAll .confirm (.err .timeout)).busy = true ∧
      (nextOf (step (ended .homeAll .confirm (.err .timeout)))).map (fun t => (t.busy, t.res)) =
        some (false, .err .timeout) :=
  ⟨started_inv _, by decide, by decide, by decide, ended_inv, rfl, by decide⟩

end Sys2Proof.Tests
end

section
/-! PROOFS. What a step does with the request that arrives at the port (logs 1, 2). -/

namespace Sys2Proof.Machine

/-- A well-formed request at the port's head is taken when it arrives: the block is ready or the request does not wait. -/
theorem fetch_of_arrives {s : State} {r : Request} {rest : List Request} (hp : s.port = r :: rest)
    (hwf : r.instr.wellFormed = true) (ha : ready s = true ∨ r.waits = false) :
    fetch s = .run r.instr { s with port := rest } := by
  have hnow : (ready s || !r.waits) = true := by simpa using ha
  simp [fetch, hp, hnow, hwf]

theorem step_of_fetch_run {s u : State} {i : Instr} (h : fetch s = .run i u) : step s = exec i u := by
  simp [step, h]

theorem withFetchWord_of_decode {nbits w : Nat} {i : Instr} (h : decodeTableWord nbits w = some i) (s : State) :
    s.withFetchWord nbits w = { s with port := ⟨i, false⟩ :: s.port } := by
  simp [State.withFetchWord, h]

/-- Settles O17: the arriving request is the one fetched, and a table word is put in front as a request that does not
wait. -/
theorem stepRunsTheArrivingRequest : Obligations.StepRunsTheArrivingRequest := by
  refine ⟨fun s r rest hp hwf ha => step_of_fetch_run (fetch_of_arrives hp hwf ha), fun s nbits w i hd hwf => ?_⟩
  rw [withFetchWord_of_decode hd]
  exact step_of_fetch_run (fetch_of_arrives (r := ⟨i, false⟩) rfl hwf (.inr rfl))

end Sys2Proof.Machine
end

section
/-! PROOFS. The acknowledged transactions (R226 to R229): the frame of each, and the template run up to the start of its
read. -/

namespace Sys2Proof.Machine

/-! ## The frames, byte by byte (R144 to R149) -/

/-- The character of an autotune command is `1` exactly where the polarity agrees with the direction (R144, R145). -/
theorem frameAtc_eq (p : Params) (on : Bool) : (if on then frameAtcOn p else frameAtcOff p) =
    .ok [128, 28, 0x41, 0x54, 0x43, 0x20, (if on = true ↔ p.polarity = .oneIsOn then 0x31 else 0x30), 128, 99] := by
  unfold frameAtcOn frameAtcOff
  cases on <;> cases p.polarity <;> rfl

theorem frameAtcStep_eq : frameAtcStep = .ok [128, 28, 0x41, 0x54, 0x43, 0x20, 0x53, 128, 99] := rfl

theorem isStub_iff (n : Nat) : isStub n = true ↔ n = 1 ∨ n = 2 ∨ n = 3 := by
  simp [isStub, or_assoc]

theorem frameStubHome_eq {n : Nat} (hn : n = 1 ∨ n = 2 ∨ n = 3) :
    frameStubHome n = .ok [128, 28, 0x4D, 0x31, 0x48, 0x20, BitVec.ofNat 8 (0x30 + n), 128, 99] := by
  rcases hn with rfl | rfl | rfl <;> rfl

theorem framePush_eq (on : Bool) : (if on then framePushOn else framePushOff) =
    .ok [128, 28, 0x41, 0x54, 0x43, 0x20, (if on then 0x54 else 0x46), 128, 99] := by
  cases on <;> rfl

/-! ## The read that follows -/

/-- P_ACK_KIND has two values (R13). -/
theorem ackRead_eq (p : Params) : ackRead p = if p.ack = .confirm then .confirm else .object := by
  unfold ackRead
  cases p.ack <;> rfl

/-- On a connected block, the operation's check passed and its write accepted, the template has sent the frame and waits for
the acknowledgement (R220). -/
theorem transact_start_ack {s : State} {argOk off : Bool} {frame : Except ErrCode (List Byte)} {pre : State → State}
    {bytes : List Byte} {x : Txn} (hc : s.conn = .connected) (hw : (drawWrite s).1 = .ok) (ha : argOk = true)
    (hf : frame = .ok bytes) (hp : pre (beginOp s) = { beginOp s with continuousOff := off })
    (hx : readOf s.params x = ackRead s.params) :
    transact argOk frame pre (some x) s = { s with
      continuousOff := off, writeDraws := (drawWrite s).2.writeDraws, draws := (drawWrite s).2.draws,
      tx := s.tx ++ bytes, busy := true, res := .none, buf := [], rcnt := 0, st := .sync, cur := some x,
      kind := if s.params.ack = .confirm then .confirm else .object } := by
  rw [ha, hf, transact_start hc hw hp, hx, ackRead_eq]

/-! ## The four operations of a ready block are the template -/

theorem exec_autotuning_ready {s : State} (hb : s.busy = false) (hs : s.st = .idle) (on : Bool) :
    exec (.autotuning on) s = .next (transact true (if on then frameAtcOn s.params else frameAtcOff s.params)
      (clearOff on) (some (.autotuning on)) s) := by
  rw [exec, execAutotuning, whenIdle_ready hb hs]

theorem exec_singleAutotuningStep_ready {s : State} (hb : s.busy = false) (hs : s.st = .idle) :
    exec .singleAutotuningStep s =
      .next (transact s.continuousOff frameAtcStep noPreWrite (some .singleStep) s) := by
  rw [exec, execSingleAutotuningStep, whenIdle_ready hb hs]

theorem exec_selectedStubHome_ready {s : State} (hb : s.busy = false) (hs : s.st = .idle) (n : Nat) :
    exec (.selectedStubHome n) s =
      .next (transact (isStub n) (frameStubHome n) noPreWrite (some .stubHome) s) := by
  rw [exec, execSelectedStubHome, whenIdle_ready hb hs]

theorem exec_sendTunePositionsOnOff_ready {s : State} (hb : s.busy = false) (hs : s.st = .idle) (on : Bool) :
    exec (.sendTunePositionsOnOff on) s =
      .next (transact true (if on then framePushOn else framePushOff) noPreWrite (some .push) s) := by
  rw [exec, execSendTunePositionsOnOff, whenIdle_ready hb hs]

/-- Settles O43: each of the four is the common template with its own check, frame and `pre_write`, run up to the start of
the acknowledgement read. -/
theorem acknowledgedTransactionsWriteAndRead : Obligations.AcknowledgedTransactionsWriteAndRead := by
  intro s n on hb hs hc hw started
  refine ⟨?autotuning, fun hoff => ?singleStep, fun hn => ?stubHome, ?push⟩
  case autotuning =>
    exact (exec_autotuning_ready hb hs on).trans
      (congrArg _ (transact_start_ack hc hw rfl (frameAtc_eq s.params on) (clearOff_eq on _) rfl))
  case singleStep =>
    exact (exec_singleAutotuningStep_ready hb hs).trans
      (congrArg _ (transact_start_ack hc hw hoff frameAtcStep_eq (noPreWrite_eq _) rfl))
  case stubHome =>
    exact (exec_selectedStubHome_ready hb hs n).trans
      (congrArg _ (transact_start_ack hc hw ((isStub_iff n).mpr hn) (frameStubHome_eq hn) (noPreWrite_eq _) rfl))
  case push =>
    exact (exec_sendTunePositionsOnOff_ready hb hs on).trans
      (congrArg _ (transact_start_ack hc hw rfl (framePush_eq on) (noPreWrite_eq _) rfl))

end Sys2Proof.Machine
end

section
/-! PROOFS. What a step leaves of the registers that the parser does not own (R39, R50 to R52): only an operation taken from
the port and the end of a transaction write them. -/

namespace Sys2Proof.Machine

/-- What the parser never writes: the parameters, the connection and the autotuning flag, and the result of an idle block. -/
structure KeepsSequencer (s t : State) : Prop where
  params : t.params = s.params
  conn : t.conn = s.conn
  continuousOff : t.continuousOff = s.continuousOff
  res : s.st = .idle → t.res = s.res

theorem keepsSequencer_feedPair {c : Byte} {s t : State} (h : feedPair c s = .next t) : KeepsSequencer s t := by
  have hf := (feedPair_frame h).1
  refine ⟨by rw [hf], by rw [hf], by rw [hf], fun hs => ?_⟩
  rw [feedPair_idle hs] at h
  cases h
  rfl

theorem keepsSequencer_rxStep {s t : State} (hs : s.st ≠ .idle) (h : rxStep s = .next t) : KeepsSequencer s t := by
  have hf := (rxStep_frame h).1
  exact ⟨by rw [hf], by rw [hf], by rw [hf], fun hi => absurd hi hs⟩

/-- An operation relies on no request behind its own. -/
theorem OperationFrame.of_port {i : Instr} {s t : State} {rest : List Request}
    (h : OperationFrame i { s with port := rest } t) : OperationFrame i s t :=
  ⟨h.busy, h.st, h.tx, h.params, h.rx, h.conn, h.continuousOff, h.res⟩

/-- What a step does to the sequencer's registers: an operation taken from the port writes them, or the end of a transaction
does, or nothing does. -/
theorem step_sequencer_cases {s t : State} (h : step s = .next t) :
    (∃ i u, fetch s = .run i u ∧ rxPairCode i = none ∧ OperationFrame i s t) ∨
    (fetch s = .waiting ∧ s.busy = true ∧ t = endTxn s) ∨
    KeepsSequencer s t := by
  rcases step_cases h with ⟨i, u, hf, hx⟩ | ⟨-, hs, hx⟩ | ⟨hf, -, hb, ht⟩ | ⟨-, -, -, rfl⟩
  · obtain ⟨r, rest, -, -, rfl, -⟩ := fetch_run hf
    cases hc : rxPairCode i with
    | none => exact .inl ⟨i, _, hf, hc, (exec_operation_frame hc hx).of_port⟩
    | some c =>
      rw [exec_pair hc] at hx
      have hk := keepsSequencer_feedPair hx
      exact .inr (.inr ⟨hk.params, hk.conn, hk.continuousOff, hk.res⟩)
  · exact .inr (.inr (keepsSequencer_rxStep hs hx))
  · exact .inr (.inl ⟨hf, hb, ht⟩)
  · exact .inr (.inr ⟨rfl, rfl, rfl, fun _ => rfl⟩)

/-- Settles O55. -/
theorem parametersNeverChange : Obligations.ParametersNeverChange := by
  intro s t h
  rcases step_sequencer_cases h with ⟨_, _, -, -, hop⟩ | ⟨-, -, rfl⟩ | hk
  · exact hop.params
  · rw [(endTxn_frame s).1]
  · exact hk.params

/-- Settles O56: of the operations only these two write `conn`, and the end of a transaction does not. -/
theorem onlyConnectAndCloseChangeTheConnection : Obligations.OnlyConnectAndCloseChangeTheConnection := by
  intro s t h hne
  rcases step_sequencer_cases h with ⟨i, u, hf, -, hop⟩ | ⟨-, -, rfl⟩ | hk
  · rcases hop.conn with hsame | ⟨a, n, rfl⟩ | rfl
    · exact absurd hsame hne
    · exact ⟨u, .inl ⟨a, n, hf⟩⟩
    · exact ⟨u, .inr hf⟩
  · exact absurd (by rw [(endTxn_frame s).1]) hne
  · exact absurd hk.conn hne

/-- Settles O57: an operation can only clear the flag, the end of a transaction only set it. -/
theorem onlyThreeWritersOfContinuousOff : Obligations.OnlyThreeWritersOfContinuousOff := by
  intro s t h hne
  rcases step_sequencer_cases h with ⟨i, u, hf, -, hop⟩ | ⟨hf, -, rfl⟩ | hk
  · rcases hop.continuousOff with hsame | ⟨hoff, ⟨a, n, rfl⟩ | rfl⟩
    · exact absurd hsame hne
    · exact .inl ⟨hoff, u, .inl ⟨a, n, hf⟩⟩
    · exact .inl ⟨hoff, u, .inr hf⟩
  · rcases (endTxn_frame s).2 with hsame | ⟨hon, hcur, hres⟩
    · exact absurd hsame hne
    · exact .inr ⟨hon, hf, hcur, hres⟩
  · exact absurd hk.continuousOff hne

/-- Settles O58: a ready block has no transaction to end, the parser takes no event of it, and of the operations only the ten
transactions write `res`. -/
theorem resultKeepsUntilTheNextTransaction : Obligations.ResultKeepsUntilTheNextTransaction := by
  intro s t hready h hne
  obtain ⟨hidle, hst⟩ := (ready_iff s).mp hready
  rcases step_sequencer_cases h with ⟨i, u, hf, hpair, hop⟩ | ⟨-, hbusy, -⟩ | hk
  · rcases hop.res with hsame | ⟨hframe, hnotRead⟩
    · exact absurd hsame hne
    · exact ⟨i, u, hf, hpair, hframe, hnotRead⟩
  · simp [hidle] at hbusy
  · exact absurd (hk.res hst) hne

end Sys2Proof.Machine
end

section
/-! PROOFS. A control pair as an instruction is the parser's own steps over the backlog with the pair at its end (log 13). -/

namespace Sys2Proof.Machine

/-- Settles O31. -/
theorem pairsWaitWhileNoReadIsActive : Obligations.PairsWaitWhileNoReadIsActive := by
  intro s i c hs hi
  rw [exec_pair hi, feedPair_idle hs]
  rfl

theorem rxPairCode_rxPairOf (c : Byte) : rxPairCode (rxPairOf c) = some c := by
  unfold rxPairOf
  repeat' split
  all_goals simp_all [rxPairCode]

/-- The test for an active read in `feedPair` is the one `feed` makes before each event. -/
theorem feedPair_eq_feed (c : Byte) (s : State) : feedPair c s = feed (s.rx ++ [.byte MARKER, .byte c]) s := by
  by_cases hs : s.st = .idle
  · cases hr : s.rx <;> simp [feedPair, feed, hs, hr]
  · exact feedPair_active hs c

/-- Each of the first `n` steps from `s` is taken by an active read. -/
def ActiveBefore (n : Nat) (s : State) : Prop := ∀ k < n, ∃ u, steps k s = .next u ∧ u.st ≠ .idle

theorem activeBefore_zero (s : State) : ActiveBefore 0 s := fun _ hk => absurd hk (Nat.not_lt_zero _)

theorem activeBefore_one {s : State} (hs : s.st ≠ .idle) : ActiveBefore 1 s := by
  intro k hk
  obtain rfl : k = 0 := by omega
  exact ⟨s, rfl, hs⟩

theorem activeBefore_succ {n : Nat} {s u : State} (hs : s.st ≠ .idle) (hstep : step s = .next u)
    (hu : ActiveBefore n u) : ActiveBefore (n + 1) s := by
  intro k hk
  cases k with
  | zero => exact ⟨s, rfl, hs⟩
  | succ k =>
    rw [steps_of_step hstep]
    exact hu k (by omega)

/-- What a feed of `es` from `s` is as a run: `n` steps, each from an active read, that stop at the end of the read or of
the events. -/
structure FeedIsRun (es : List RxEvent) (s : State) (n : Nat) : Prop where
  le : n ≤ es.length
  run : feed es s = steps n { s with rx := es }
  active : ActiveBefore n { s with rx := es }
  stop : ∀ t, feed es s = .next t → t.st = .idle ∨ (n = es.length ∧ t.rx = [])

/-- The event taken first, in an active read, is one step on the listed events (R173). -/
theorem step_listed {e : RxEvent} {es : List RxEvent} {s : State} (hw : hostWaits s) (hs : s.st ≠ .idle) :
    step { s with rx := e :: es } = andThen (onEvent e s) fun t => .next { t with rx := es } :=
  (step_event (s := { s with rx := e :: es }) hw hs rfl).trans (onEvent_rx e s es)

theorem hostWaits_onEvent {e : RxEvent} {s t : State} (hw : hostWaits s) (h : onEvent e s = .next t) :
    hostWaits t := by
  rw [onEvent_frame h]
  exact hw

theorem andThen_of_stopped {o : Step} (h : ∀ t, o ≠ .next t) (f : State → Step) : andThen o f = o := by
  cases o with
  | next t => exact absurd rfl (h t)
  | fault r => rfl
  | refused r => rfl

/-- A first event at which the parser stops is the only step. -/
theorem feedIsRun_stopped {e : RxEvent} {es : List RxEvent} {s : State} (hw : hostWaits s) (hs : s.st ≠ .idle)
    (hstop : ∀ t, onEvent e s ≠ .next t) : FeedIsRun (e :: es) s 1 := by
  have hfeed : feed (e :: es) s = onEvent e s := by rw [feed, if_neg hs, andThen_of_stopped hstop]
  refine ⟨by simp, ?_, activeBefore_one hs, fun t ht => absurd (hfeed.symm.trans ht) (hstop t)⟩
  rw [hfeed, steps_succ, step_listed hw hs, andThen_of_stopped hstop, andThen_of_stopped hstop]

/-- Every feed of listed events is such a run, by induction on the events. -/
theorem exists_feedIsRun {es : List RxEvent} {s : State} (hw : hostWaits s) : ∃ n, FeedIsRun es s n := by
  induction es generalizing s with
  | nil => exact ⟨0, Nat.le_refl 0, rfl, activeBefore_zero _, fun t ht => .inr ⟨rfl, by cases ht; rfl⟩⟩
  | cons e es ih =>
    by_cases hs : s.st = .idle
    · have hfeed : feed (e :: es) s = .next { s with rx := e :: es } := by rw [feed, if_pos hs]
      exact ⟨0, Nat.zero_le _, hfeed, activeBefore_zero _, fun t ht => .inl (by rw [hfeed] at ht; cases ht; exact hs)⟩
    · cases he : onEvent e s with
      | fault r => exact ⟨1, feedIsRun_stopped hw hs (by simp [he])⟩
      | refused r => exact ⟨1, feedIsRun_stopped hw hs (by simp [he])⟩
      | next u =>
        obtain ⟨n, hrun⟩ := ih (hostWaits_onEvent hw he)
        have hfeed : feed (e :: es) s = feed es u := by rw [feed, if_neg hs, he, andThen_next]
        have hstep : step { s with rx := e :: es } = .next { u with rx := es } := by
          rw [step_listed hw hs, he, andThen_next]
        refine ⟨n + 1, ?le, ?run, ?active, ?stop⟩
        case le => simpa using hrun.le
        case run => rw [hfeed, steps_of_step hstep, hrun.run]
        case active => exact activeBefore_succ hs hstep hrun.active
        case stop =>
          intro t ht
          exact (hrun.stop t (hfeed ▸ ht)).imp_right fun ⟨hn, hrx⟩ => ⟨by simp [hn], hrx⟩

/-- Settles O32: the pair's instruction is the feed of the backlog with the pair at its end. -/
theorem pairInstructionIsTheParsersSteps : Obligations.PairInstructionIsTheParsersSteps := by
  intro s c hw arrived
  obtain ⟨n, hrun⟩ := exists_feedIsRun (es := s.rx ++ [.byte MARKER, .byte c]) hw
  have hexec : exec (rxPairOf c) s = feed (s.rx ++ [.byte MARKER, .byte c]) s := by
    rw [exec_pair (rxPairCode_rxPairOf c), feedPair_eq_feed]
  have hlen : (s.rx ++ [RxEvent.byte MARKER, .byte c]).length = s.rx.length + 2 := by simp
  refine ⟨n, hlen ▸ hrun.le, hexec.trans hrun.run, hrun.active, fun t ht => ?_⟩
  rw [← hlen]
  exact hrun.stop t (hexec ▸ ht)

end Sys2Proof.Machine
end

section
/-! PROOFS. Every step keeps the invariant (R44 to R53, R110, R174, R175, R189, R193 to R195): first the channels and the
parser's moves, then the sequencer's. -/

namespace Sys2Proof.Machine

/-! ## The channels and the resync budget -/

/-- The invariant says nothing of the environment's side, the calls made to it, the result port and the command port. -/
theorem inv_channels {s : State} (h : Inv s) (tx : List Byte) (rx : List RxEvent) (wd : List WriteDraw) (od : List Bool)
    (d : Nat) (calls : List EnvCall) (ret : Ret) (port : List Request) :
    Inv { s with tx := tx, rx := rx, writeDraws := wd, openDraws := od, draws := d, calls := calls, ret := ret,
                 port := port } :=
  { h with }

theorem overResync_zero (p : Params) : overResync p 0 = false := by
  cases h : p.maxResync with
  | none => exact overResync_inf h 0
  | some m => simp [overResync_some h]

/-- A count within the budget is at most `P_MAX_RESYNC` (R175). -/
theorem le_of_overResync_false {p : Params} {n m : Nat} (h : overResync p n = false) (hm : p.maxResync = some m) :
    n ≤ m := by
  simpa [overResync_some hm] using h

/-! ## The parser -/

/-- The results a read of kind `k` can end with (R193 to R195). -/
def ReadResult (p : Params) (k : ReadKind) (r : Result) : Prop :=
  match k with
  | .confirm => r = .okConfirm ∨ r = .err .timeout ∨ r = .err .transportError
  | .object => (∃ q, r = .okObject q ∧ q.length ≤ p.maxPayload) ∨
      r = .err .timeout ∨ r = .err .transportError ∨ r = .err .protocolDesync
  | .motor => (∃ h m1 m2 m3 v, r = .okMotor h m1 m2 m3 v) ∨
      r = .err .timeout ∨ r = .err .transportError ∨ r = .err .protocolDesync

theorem readResult_timeout (p : Params) (k : ReadKind) : ReadResult p k (.err .timeout) := by
  cases k <;> simp [ReadResult]

theorem readResult_transportError (p : Params) (k : ReadKind) : ReadResult p k (.err .transportError) := by
  cases k <;> simp [ReadResult]

theorem readResult_protocolDesync (p : Params) {k : ReadKind} (hk : k ≠ .confirm) :
    ReadResult p k (.err .protocolDesync) := by
  cases k <;> simp_all [ReadResult]

/-- A payload handed over by a read fits the buffer (R47). -/
theorem ReadResult.payload_le {p : Params} {k : ReadKind} {q : List Byte} (h : ReadResult p k (.okObject q)) :
    q.length ≤ p.maxPayload := by
  cases k <;> simp [ReadResult] at h
  exact h

/-- A read that ends with one of its results, the counter at `n` within R45's bound. -/
theorem inv_finish {s : State} (h : Inv s) {r : Result} (hr : ReadResult s.params s.kind r) {n : Nat}
    (hn : ∀ m, s.params.maxResync = some m → n ≤ m + 1) (hc : s.kind = .confirm → n = 0) :
    Inv (finish r { s with rcnt := n }) where
  params := h.params
  bufBound := Nat.zero_le _
  bufEmpty _ _ := rfl
  confirmOutside _ := ⟨nofun, nofun⟩
  rcntBound := hn
  rcntActive hi := absurd rfl hi
  rcntConfirm := hc
  busyCur := h.busyCur
  busyConn := h.busyConn
  busyKind := h.busyKind
  busyRes _ hi := absurd rfl hi
  endConfirm _ _ hk := by
    have hk : s.kind = .confirm := hk
    simpa [ReadResult, hk] using hr
  endObject _ _ hk := by
    have hk : s.kind = .object := hk
    rw [hk] at hr
    exact hr.imp_left fun ⟨q, hq, _⟩ => ⟨q, hq⟩
  endMotor _ _ hk := by
    have hk : s.kind = .motor := hk
    rw [hk] at hr
    exact hr
  resPayload q hq := ReadResult.payload_le ((show r = Result.okObject q from hq) ▸ hr)
  onCleared := h.onCleared
  stepAllowed := h.stepAllowed

/-- The same with the counter as it is. -/
theorem inv_finish_same {s : State} (h : Inv s) {r : Result} (hr : ReadResult s.params s.kind r) :
    Inv (finish r s) :=
  inv_finish h hr h.rcntBound h.rcntConfirm

/-- A move of an active read that stays active: outside an object with nothing collected, or inside one with what fits. -/
theorem inv_move {s : State} (h : Inv s) (hs : s.st ≠ .idle) {st : PState} {buf : List Byte} {n : Nat}
    (hst : st ≠ .idle) (hbuf : buf.length ≤ s.params.maxPayload) (hempty : st ≠ .payload → st ≠ .pmark → buf = [])
    (hside : s.kind = .confirm → st ≠ .payload ∧ st ≠ .pmark) (hcount : s.kind = .confirm → n = 0)
    (hn : overResync s.params n = false) :
    Inv { s with st := st, buf := buf, rcnt := n } where
  params := h.params
  bufBound := hbuf
  bufEmpty := hempty
  confirmOutside := hside
  rcntBound _ hm := Nat.le_succ_of_le (le_of_overResync_false hn hm)
  rcntActive _ := hn
  rcntConfirm := hcount
  busyCur := h.busyCur
  busyConn := h.busyConn
  busyKind := h.busyKind
  busyRes hb _ := h.busyRes hb hs
  endConfirm _ hi := absurd hi hst
  endObject _ hi := absurd hi hst
  endMotor _ hi := absurd hi hst
  resPayload := h.resPayload
  onCleared := h.onCleared
  stepAllowed := h.stepAllowed

/-- A move between the two states outside an object. -/
theorem inv_move_outside {s : State} (h : Inv s) (hs : s.st = .sync ∨ s.st = .classify) {st : PState}
    (hst : st = .sync ∨ st = .classify) : Inv { s with st := st } := by
  have ha : s.st ≠ .idle := by rcases hs with hs | hs <;> simp [hs]
  have hbuf : s.buf = [] := by rcases hs with hs | hs <;> exact h.bufEmpty (by simp [hs]) (by simp [hs])
  refine inv_move h ha ?_ h.bufBound (fun _ _ => hbuf) (fun _ => ⟨?_, ?_⟩) h.rcntConfirm (h.rcntActive ha) <;>
    rcases hst with rfl | rfl <;> simp

/-- A read inside an object is no confirmation read (R189). -/
theorem kind_of_inside {s : State} (h : Inv s) (hs : s.st = .payload ∨ s.st = .pmark) : s.kind ≠ .confirm := by
  intro hk
  obtain ⟨hpayload, hpmark⟩ := h.confirmOutside hk
  exact hs.elim hpayload hpmark

/-- A resync event of a read that is no confirmation read ends it with ProtocolDesync, or is within the budget (R175). -/
theorem inv_resyncEvent {s : State} (h : Inv s) (hs : s.st ≠ .idle) (hk : s.kind ≠ .confirm) {f : State → State}
    (hf : overResync s.params (s.rcnt + 1) = false → Inv (f { s with rcnt := s.rcnt + 1 })) :
    Inv (resyncEvent f s) := by
  rw [resyncEvent_eq]
  split
  case isTrue =>
    exact inv_finish h (readResult_protocolDesync _ hk)
      (fun m hm => Nat.succ_le_succ (le_of_overResync_false (h.rcntActive hs) hm)) (absurd · hk)
  case isFalse hover => exact hf (by simpa using hover)

/-- A byte appended inside an object fits, or ends the read with ProtocolDesync (R184). -/
theorem inv_appendByte {s : State} (h : Inv s) (hs : s.st = .payload ∨ s.st = .pmark) (b : Byte) :
    Inv (appendByte b (fun t => { t with st := .payload }) s) := by
  have hk := kind_of_inside h hs
  have ha : s.st ≠ .idle := by rcases hs with hs | hs <;> simp [hs]
  unfold appendByte
  split
  case isTrue => exact inv_finish_same h (readResult_protocolDesync _ hk)
  case isFalse hroom =>
    have hle := h.bufBound
    refine inv_move h ha nofun ?_ (fun hp => absurd rfl hp) (absurd · hk) (absurd · hk) (h.rcntActive ha)
    simp only [List.length_append, List.length_singleton]
    omega

theorem inv_inSync {s : State} (h : Inv s) (hs : s.st = .sync) (b : Byte) : Inv (inSync b s) := by
  unfold inSync
  split
  · exact inv_move_outside h (.inl hs) (.inr rfl)
  · exact h

theorem inv_classifyConfirm {s : State} (h : Inv s) (hs : s.st = .classify) (hk : s.kind = .confirm) (b : Byte) :
    Inv (classifyConfirm b s) := by
  unfold classifyConfirm
  split
  · exact inv_finish_same h (by simp [ReadResult, hk])
  · exact inv_move_outside h (.inr hs) (.inl rfl)

theorem inv_classifyObject {s : State} (h : Inv s) (hs : s.st = .classify) (hk : s.kind ≠ .confirm) (b : Byte) :
    Inv (classifyObject b s) := by
  have ha : s.st ≠ .idle := by simp [hs]
  unfold classifyObject
  split
  · exact inv_move h ha nofun (Nat.zero_le _) (fun _ _ => rfl) (absurd · hk) (absurd · hk) (h.rcntActive ha)
  · exact inv_resyncEvent h ha hk fun hn => inv_move h ha nofun h.bufBound
      (fun _ _ => h.bufEmpty (by simp [hs]) (by simp [hs])) (absurd · hk) (absurd · hk) hn

theorem inv_inClassify {s : State} (h : Inv s) (hs : s.st = .classify) (b : Byte) : Inv (inClassify b s) := by
  unfold inClassify
  split
  · exact inv_move_outside h (.inr hs) (.inl rfl)
  · split
    case isTrue hk => exact inv_classifyConfirm h hs hk b
    case isFalse hk => exact inv_classifyObject h hs hk b

theorem inv_inPayload {s : State} (h : Inv s) (hs : s.st = .payload) (b : Byte) : Inv (inPayload b s) := by
  have ha : s.st ≠ .idle := by simp [hs]
  have hk := kind_of_inside h (.inl hs)
  unfold inPayload
  split
  · exact inv_move h ha nofun h.bufBound (fun _ hp => absurd rfl hp) (absurd · hk) (absurd · hk) (h.rcntActive ha)
  · have hsame : appendByte b (fun t => t) s = appendByte b (fun t => { t with st := .payload }) s := by
      unfold appendByte
      rw [← hs]
    rw [hsame]
    exact inv_appendByte h (.inl hs) b

/-- A completed object read hands over its buffer, a motor read what it decodes to (R189). -/
theorem inv_completeObject {s t : State} (h : Inv s) (ht : completeObject s = .next t) : Inv t := by
  unfold completeObject at ht
  split at ht
  case h_1 hk =>
    cases ht
    exact inv_finish_same h (by rw [hk]; exact .inl ⟨s.buf, rfl, h.bufBound⟩)
  case h_2 hk =>
    cases ht
    refine inv_finish_same h ?_
    rw [hk]
    exact (motorResult_cases s.buf).imp_right fun hm => .inr (.inr hm)
  case h_3 => cases ht

theorem inv_inPmark {s t : State} (h : Inv s) (hs : s.st = .pmark) {b : Byte} (ht : inPmark b s = .next t) :
    Inv t := by
  have ha : s.st ≠ .idle := by simp [hs]
  have hk := kind_of_inside h (.inr hs)
  have resynced {st : PState} (hst : st ≠ .idle) : Inv (resyncEvent (fun u => { u with buf := [], st := st }) s) :=
    inv_resyncEvent h ha hk fun hn => inv_move h ha hst (Nat.zero_le _) (fun _ _ => rfl) (absurd · hk) (absurd · hk) hn
  unfold inPmark at ht
  split at ht
  · cases ht
    exact inv_appendByte h (.inr hs) MARKER
  · split at ht
    · exact inv_completeObject h ht
    · split at ht
      · cases ht
        exact resynced nofun
      · cases ht
        exact resynced nofun

theorem inv_onByte {s t : State} (h : Inv s) {b : Byte} (ht : onByte b s = .next t) : Inv t := by
  cases hs : s.st with
  | idle =>
    simp only [onByte, hs] at ht
    cases ht
    exact h
  | sync => rw [onByte_sync hs] at ht; cases ht; exact inv_inSync h hs b
  | classify => rw [onByte_classify hs] at ht; cases ht; exact inv_inClassify h hs b
  | payload => rw [onByte_payload hs] at ht; cases ht; exact inv_inPayload h hs b
  | pmark => rw [onByte_pmark hs] at ht; exact inv_inPmark h hs ht

/-- The parser keeps the invariant on every event (R173). -/
theorem inv_onEvent {s t : State} (h : Inv s) {e : RxEvent} (ht : onEvent e s = .next t) : Inv t := by
  cases e with
  | byte b => exact inv_onByte h ht
  | timeout => cases ht; exact inv_finish_same h (readResult_timeout _ _)
  | rxError => cases ht; exact inv_finish_same h (readResult_transportError _ _)

theorem inv_rxStep {s t : State} (h : Inv s) (ht : rxStep s = .next t) : Inv t := by
  unfold rxStep at ht
  refine inv_onEvent ?_ ht
  cases hr : s.rx with
  | nil => rw [rxRead_nil hr]; exact inv_channels h ..
  | cons e es => rw [rxRead_cons hr]; exact inv_channels h ..

theorem inv_feed {es : List RxEvent} {s t : State} (h : Inv s) (ht : feed es s = .next t) : Inv t := by
  induction es generalizing s with
  | nil => cases ht; exact inv_channels h ..
  | cons e es ih =>
    unfold feed at ht
    split at ht
    · cases ht
      exact inv_channels h ..
    · obtain ⟨u, hu, ht⟩ := andThen_eq_next ht
      exact ih (inv_onEvent h hu) ht

/-! ## The sequencer -/

/-- With no transaction running, all the invariant asks of `res` is that a payload fits the buffer (R47). -/
theorem inv_over {s : State} (h : Inv s) {r : Result} (hr : ∀ q, r = .okObject q → q.length ≤ s.params.maxPayload)
    (conn : Conn) (off : Bool) :
    Inv { s with res := r, busy := false, cur := none, conn := conn, continuousOff := off } where
  params := h.params
  bufBound := h.bufBound
  bufEmpty := h.bufEmpty
  confirmOutside := h.confirmOutside
  rcntBound := h.rcntBound
  rcntActive := h.rcntActive
  rcntConfirm := h.rcntConfirm
  busyCur := ⟨nofun, fun hc => absurd rfl hc⟩
  busyConn := nofun
  busyKind := nofun
  busyRes := nofun
  endConfirm := nofun
  endObject := nofun
  endMotor := nofun
  resPayload := hr
  onCleared := nofun
  stepAllowed := nofun

/-- The start of a read, alone or as the read of a transaction that may run (R110, R174, R220). -/
theorem inv_startRead {s : State} (h : Inv s) {k : ReadKind} {busy off : Bool} {cur : Option Txn} {res : Result}
    (hcur : busy = true ↔ cur ≠ none) (hconn : busy = true → s.conn = .connected)
    (hkind : ∀ x, cur = some x → k = readOf s.params x) (hres : busy = true → res = .none)
    (hpayload : ∀ q, res = .okObject q → q.length ≤ s.params.maxPayload)
    (hon : cur = some (.autotuning true) → off = false) (hstep : cur = some .singleStep → off = true) :
    Inv (startRead k { s with busy := busy, cur := cur, res := res, continuousOff := off }) where
  params := h.params
  bufBound := Nat.zero_le _
  bufEmpty _ _ := rfl
  confirmOutside _ := ⟨nofun, nofun⟩
  rcntBound _ _ := Nat.zero_le _
  rcntActive _ := overResync_zero _
  rcntConfirm _ := rfl
  busyCur := hcur
  busyConn := hconn
  busyKind := hkind
  busyRes hb _ := hres hb
  endConfirm _ := nofun
  endObject _ := nofun
  endMotor _ := nofun
  resPayload := hpayload
  onCleared := hon
  stepAllowed := hstep

/-- A read on its own belongs to no transaction (R193 to R195). -/
theorem inv_startRead_alone {s : State} (h : Inv s) (hb : s.busy = false) (k : ReadKind) : Inv (startRead k s) := by
  have hcur : s.cur = none := by simpa [hb] using h.busyCur
  exact inv_startRead h h.busyCur h.busyConn (by simp [hcur]) (by simp [hb]) h.resPayload h.onCleared h.stepAllowed

/-- What the transaction `x` relies on when its read starts: autotune-on has cleared the flag (R226), and a single step found
it set (R227). -/
structure MayStart (x : Txn) (argOk off : Bool) : Prop where
  cleared : x = .autotuning true → off = false
  stepped : x = .singleStep → argOk = true → off = true

/-- The template keeps the invariant, whichever way it goes (R220, R257). -/
theorem inv_transact {s : State} (h : Inv s) (hs : s.st = .idle) {pre : State → State} {off : Bool}
    (hp : pre (beginOp s) = { beginOp s with continuousOff := off }) (argOk : Bool) (frame : Except ErrCode (List Byte))
    {read : Option Txn} (hx : ∀ x, read = some x → MayStart x argOk off) :
    Inv (transact argOk frame pre read s) := by
  obtain ⟨-, -, ⟨hended, hres⟩ | ⟨x, hread, hstarted, hconn, harg, hoff⟩⟩ := transact_cases hs hp argOk frame read
  · rw [hended]
    exact inv_channels (inv_over h (fun q hq => by rcases hres with hres | ⟨e, hres⟩ <;> simp [hres] at hq) s.conn _) ..
  · obtain ⟨hcleared, hstepped⟩ := hx x hread
    rw [hstarted]
    refine inv_channels (inv_startRead h (k := readOf s.params x) (busy := true) (cur := some x) (res := .none)
      (off := (transact argOk frame pre read s).continuousOff) (by simp) (fun _ => hconn) (by simp) (fun _ => rfl)
      (by simp) ?_ ?_) ..
    · intro hc
      exact hoff.trans (hcleared (Option.some.inj hc))
    · intro hc
      exact hoff.trans (hstepped (Option.some.inj hc) harg)

/-- A connect ends with OK or TransportError, and with no transaction (R221). -/
theorem inv_connectOp {s : State} (h : Inv s) (hs : s.st = .idle) (a : List Byte) (n : Nat) :
    Inv (connectOp a n s) := by
  obtain ⟨heq, hres, -⟩ := connectOp_frame a n hs
  rw [heq]
  exact inv_channels (inv_over h (fun q hq => by rcases hres with hres | hres <;> simp [hres] at hq) _ _) ..

theorem inv_closeOp {s : State} (h : Inv s) : Inv (closeOp s) := by
  unfold closeOp
  rw [closeLink_eq]
  exact inv_channels (inv_over h (r := .ok) nofun .disconnected s.continuousOff) ..

theorem inv_giveBack {s : State} (h : Inv s) (r : Except ErrCode (List Byte)) : Inv (giveBack r s) := by
  rw [giveBack_frame]
  exact inv_channels h ..

/-- Only a read's own payload is handed on as a payload (R220). -/
theorem eq_okObject_of_mapResult {x : Txn} {r : Result} {q : List Byte} (h : mapResult x r = .okObject q) :
    r = .okObject q := by
  cases x <;> cases r <;> simp_all [mapResult, ackResult]

theorem inv_endTxn {s : State} (h : Inv s) : Inv (endTxn s) := by
  cases hc : s.cur with
  | none =>
    have hidle : s.busy = false := by simpa [hc] using h.busyCur
    rw [endTxn_none hc, ← hidle]
    exact h
  | some x =>
    rw [endTxn_some hc]
    exact inv_over h (fun q hq => h.resPayload q (eq_okObject_of_mapResult hq)) s.conn _

/-- Every operation of R109 that answers a next state keeps the invariant. -/
theorem inv_exec_operation {i : Instr} {s t : State} (h : Inv s) (hi : rxPairCode i = none)
    (ht : exec i s = .next t) : Inv t := by
  obtain ⟨hb, hs⟩ : s.busy = false ∧ s.st = .idle :=
    let hop := exec_operation_frame hi ht
    ⟨hop.busy, hop.st⟩
  cases hframe : frameOf s.params i with
  | some r =>
    rw [exec_pure hframe hb hs] at ht
    cases ht
    exact inv_giveBack h r
  | none =>
    cases i <;> simp only [frameOf, rxPairCode, reduceCtorEq] at hframe hi <;>
      simp only [exec, execRdConfirm, execRdObject, execRdMotor, execConnect, execClose, execSetMotorPositions,
        execReadMotorPositions, execAllStubsHome, execHardStopMotors, execAutotuning, execSingleAutotuningStep,
        execSelectedStubHome, execSendTunePositionsOnOff, whenIdle_ready hb hs, Host.Outcome.next.injEq] at ht <;>
      subst ht
    case rdConfirm | rdObject | rdMotor => exact inv_startRead_alone h hb _
    case connect a n => exact inv_connectOp h hs a n
    case close => exact inv_closeOp h
    case hardStopMotors => exact inv_transact h hs (noPreWrite_eq _) _ _ nofun
    case autotuning on =>
      refine inv_transact h hs (clearOff_eq on _) _ _ ?_
      rintro _ ⟨⟩
      cases on
      · exact ⟨nofun, nofun⟩
      · exact ⟨fun _ => rfl, nofun⟩
    case singleAutotuningStep =>
      refine inv_transact h hs (noPreWrite_eq _) _ _ ?_
      rintro _ ⟨⟩
      exact ⟨nofun, fun _ => id⟩
    case setMotorPositions | readMotorPositions | allStubsHome | selectedStubHome | sendTunePositionsOnOff =>
      refine inv_transact h hs (noPreWrite_eq _) _ _ ?_
      rintro _ ⟨⟩
      exact ⟨nofun, nofun⟩

theorem inv_exec {i : Instr} {s t : State} (h : Inv s) (ht : exec i s = .next t) : Inv t := by
  cases hc : rxPairCode i with
  | none => exact inv_exec_operation h hc ht
  | some c =>
    rw [exec_pair hc, feedPair_eq_feed] at ht
    exact inv_feed h ht

/-- Settles O52, by what a step can be. -/
theorem stepsKeepTheInvariant : Obligations.StepsKeepTheInvariant := by
  intro s t h hstep
  rcases step_cases hstep with ⟨i, u, hf, hx⟩ | ⟨-, -, hx⟩ | ⟨-, -, -, rfl⟩ | ⟨-, -, -, rfl⟩
  · obtain ⟨r, rest, -, -, rfl, -⟩ := fetch_run hf
    exact inv_exec (inv_channels h ..) hx
  · exact inv_rxStep h hx
  · exact inv_endTxn h
  · exact h

end Sys2Proof.Machine
end

section
/-! PROOFS. The block's two channels: when it waits, which event it takes (R72, R80, R173), and what a step and a failed write
leave of TX and of the backlog (R71, R82, R252). -/

namespace Sys2Proof.Machine

/-! ## Waiting, and taking an event -/

theorem fetch_of_port_nil {s : State} (hp : s.port = []) : fetch s = .waiting := by
  simp [fetch, hp]

/-- With nothing at the port and nothing in progress a step changes nothing (R80). -/
theorem step_idle {s : State} (hp : s.port = []) (hb : s.busy = false) (hs : s.st = .idle) : step s = .next s := by
  rw [step_of_waiting (fetch_of_port_nil hp)]
  simp [background, hs, hb]

/-- Settles O18: the state after reset is such an idle block. -/
theorem idleBlockWaits : Obligations.IdleBlockWaits :=
  ⟨fun _ hp hb hs => step_idle hp hb hs, step_idle rfl rfl rfl⟩

/-- Settles O19. -/
theorem activeReadTakesOneEvent : Obligations.ActiveReadTakesOneEvent := by
  intro s hw hs
  refine ⟨fun e es hr => step_event hw hs hr, fun hr => ?_⟩
  rw [step_active hw hs, rxStep, rxRead_nil hr]

/-! ## The shapes of a step -/

/-- The inversion of a step with the arriving request told apart: an operation within its frame, a pair offered to the
parser, an event of the active read, the end of a transaction, or nothing at all. -/
theorem step_shape_cases {s t : State} (h : step s = .next t) :
    (∃ i u, fetch s = .run i u ∧ rxPairCode i = none ∧ OperationFrame i s t) ∨
    (∃ i u c rest, fetch s = .run i u ∧ rxPairCode i = some c ∧ feedPair c { s with port := rest } = .next t) ∨
    (fetch s = .waiting ∧ s.st ≠ .idle ∧ rxStep s = .next t) ∨
    t = endTxn s ∨ t = s := by
  rcases step_cases h with ⟨i, u, hf, hx⟩ | hread | ⟨-, -, -, ht⟩ | ⟨-, -, -, ht⟩
  · obtain ⟨r, rest, -, -, rfl, -⟩ := fetch_run hf
    cases hc : rxPairCode i with
    | none => exact .inl ⟨i, _, hf, hc, (exec_operation_frame hc hx).of_port⟩
    | some c => exact .inr (.inl ⟨i, _, c, rest, hf, hc, exec_pair hc _ ▸ hx⟩)
  · exact .inr (.inr (.inl hread))
  · exact .inr (.inr (.inr (.inl ht)))
  · exact .inr (.inr (.inr (.inr ht)))

/-- Settles O54: only an operation writes TX, and it appends. -/
theorem txIsAppendOnly : Obligations.TxIsAppendOnly := by
  intro s t h
  rcases step_shape_cases h with ⟨_, _, -, -, hop⟩ | ⟨_, _, _, _, -, -, hpair⟩ | ⟨-, -, hread⟩ | rfl | rfl
  · exact hop.tx
  · rw [(feedPair_frame hpair).1]
  · rw [(rxStep_frame hread).1]
  · rw [(endTxn_frame s).1]
  · exact List.prefix_rfl

/-- Settles O59: of the shapes of a step only an active read's event and an arriving pair touch the backlog. -/
theorem backlogIsOnlyConsumedByAnActiveRead : Obligations.BacklogIsOnlyConsumedByAnActiveRead := by
  intro s t h
  rcases step_shape_cases h with ⟨_, _, -, -, hop⟩ | ⟨i, u, c, _, hf, hc, hpair⟩ | ⟨hf, hs, hread⟩ | rfl | rfl
  · exact .inl hop.rx
  · obtain ⟨-, n, hn, hrx, hidle⟩ := feedPair_frame hpair
    exact .inr (.inr ⟨i, u, c, n, hf, hc, hn, hidle, hrx⟩)
  · rcases (rxStep_frame hread).2 with htaken | ⟨hs0, ht0⟩
    · exact .inr (.inl ⟨hs, hf, htaken⟩)
    · exact .inl (ht0.trans hs0.symm)
  · exact .inl (by rw [(endTxn_frame s).1])
  · exact .inl rfl

/-! ## A failed write -/

/-- E_STUB_HOME has a frame for the stubs 1 to 3 only (R147). -/
theorem isStub_of_frameStubHome {n : Nat} {frame : List Byte} (h : frameStubHome n = .ok frame) : isStub n = true := by
  unfold frameStubHome at h
  split at h
  · assumption
  · cases h

/-- On a ready block an operation is admitted, and does what stands behind its admission (R258). -/
theorem exec_of_whenIdle {i : Instr} {s t : State} {f : State → State} (hb : s.busy = false) (hs : s.st = .idle)
    (hexec : exec i s = whenIdle s fun u => .next (f u)) (ht : f s = t) : exec i s = .next t := by
  rw [hexec, whenIdle_ready hb hs, ht]

/-- Every operation that sends a frame is, on a ready block, the template over the frame of its encoder command (R110, R220).
Its own check passes where that frame exists, save that a single step wants continuous autotuning switched off (R227), and
only autotune-on has a `pre_write` (R226). -/
theorem exec_transaction {i c : Instr} {s : State} {r : Except ErrCode (List Byte)} (hb : s.busy = false)
    (hs : s.st = .idle) (hc : encoderCommandOf i = some c) (hr : frameOf s.params c = some r) :
    ∃ argOk read,
      exec i s = .next (transact argOk r (clearOff (decide (i = .autotuning true))) read s) ∧
      ∀ frame, r = .ok frame → (i = .singleAutotuningStep → s.continuousOff = true) → argOk = true := by
  cases i with
  | setMotorPositions | readMotorPositions | allStubsHome | hardStopMotors =>
    cases hc
    cases hr
    exact ⟨true, _, exec_of_whenIdle hb hs rfl rfl, fun _ _ _ => rfl⟩
  | autotuning on | sendTunePositionsOnOff on =>
    cases on
    all_goals
      cases hc
      cases hr
      exact ⟨true, _, exec_of_whenIdle hb hs rfl rfl, fun _ _ _ => rfl⟩
  | singleAutotuningStep =>
    cases hc
    cases hr
    exact ⟨s.continuousOff, _, exec_of_whenIdle hb hs rfl rfl, fun _ _ hoff => hoff rfl⟩
  | selectedStubHome n =>
    cases hc
    cases hr
    exact ⟨isStub n, _, exec_of_whenIdle hb hs rfl rfl, fun _ hframe _ => isStub_of_frameStubHome hframe⟩
  | _ => cases hc

/-- Settles O45: with its check passed, the template reaches the write and the write fails. -/
theorem failedWriteSendsAPrefix : Obligations.FailedWriteSendsAPrefix := by
  intro i c s frame sent hb hs hconn hw hc hframe hoff
  obtain ⟨argOk, read, hexec, harg⟩ := exec_transaction hb hs hc hframe
  rw [hexec, harg frame rfl hoff, transact_write_fail hs hconn hw (clearOff_eq _ _)]
  simp only [decide_eq_true_eq, beginOp_continuousOff]

end Sys2Proof.Machine
end

section
/-! PROOFS. The spelling of an operation (R109): what `render` writes the lexer reads back token by token, and the operand
readers undo `operandTokens`, so `decode` undoes `encode`. -/

namespace Sys2Proof

open Sys2Proof.Machine

/-! ## The lexer undoes `render` -/

/-- A token whose text the lexer reads as that one token, where the text ends with it. -/
def Token.ReadsAlone : Token → Prop
  | .word w => w ≠ [] ∧ (∀ b ∈ w, isWordByte b = true) ∧ wordToken w = .ok (.word w)
  | .str a => 0x22 ∉ a
  | .num _ | .comma | .openBracket | .closeBracket => True

/-- What must stand after a token's text for the token to end there: words and numerals go on over word bytes. -/
def Token.EndsBefore (s : List Byte) : Token → Prop
  | .word _ | .num _ => wordEnd s
  | .str _ | .comma | .openBracket | .closeBracket => True

/-- Tokens whose rendering keeps them apart: each reads alone, and what follows a numeral is no word byte (a word has its
space). -/
def Readable : List Token → Prop
  | [] => True
  | t :: ts => t.ReadsAlone ∧ (∀ n, t = .num n → wordEnd (render ts)) ∧ Readable ts

theorem lex_tokenText {t : Token} {s : List Byte} (ht : t.ReadsAlone) (hs : t.EndsBefore s) :
    lex .between (tokenText t ++ s) = consTok t (lex .between s) := by
  cases t with
  | word w =>
    obtain ⟨hne, hbytes, htok⟩ := ht
    exact lex_word hne hbytes htok hs
  | num n => exact lex_decNat n s hs
  | str a => exact lex_str a s ht
  | comma | openBracket | closeBracket => exact lex_symbol (by decide) s

theorem lex_spaceAfter (t : Token) (s : List Byte) : lex .between (spaceAfter t ++ s) = lex .between s := by
  cases t with
  | word | comma => exact lex_space s
  | num | str | openBracket | closeBracket => rfl

theorem wordEnd_nil : wordEnd [] := by simp [wordEnd]

theorem wordEnd_cons {b : Byte} (h : isWordByte b = false) (s : List Byte) : wordEnd (b :: s) := by
  simpa [wordEnd] using h

theorem endsBefore_nil (t : Token) : t.EndsBefore [] := by
  cases t with
  | word | num => exact wordEnd_nil
  | str | comma | openBracket | closeBracket => trivial

theorem endsBefore_spaceAfter {t : Token} {s : List Byte} (h : ∀ n, t = .num n → wordEnd s) :
    t.EndsBefore (spaceAfter t ++ s) := by
  cases t with
  | word => exact wordEnd_cons (by decide) s
  | num n => exact h n rfl
  | str | comma | openBracket | closeBracket => trivial

theorem lex_render {ts : List Token} (h : Readable ts) : lex .between (render ts) = .ok ts := by
  induction ts with
  | nil => rfl
  | cons t ts ih =>
    obtain ⟨ht, hend, hts⟩ := h
    cases ts with
    | nil =>
      have := lex_tokenText ht (endsBefore_nil t)
      rwa [List.append_nil] at this
    | cons u us =>
      rw [render, List.append_assoc, lex_tokenText ht (endsBefore_spaceAfter hend), lex_spaceAfter, ih hts]
      rfl

/-! ## The tokens of an instruction are readable -/

theorem readsAlone_mnemonic (m : Mnemonic) : (Token.word (mnemonicText m)).ReadsAlone := by
  cases m <;> exact ⟨by decide, by decide, by decide⟩

theorem readsAlone_boolToken (on : Bool) : (boolToken on).ReadsAlone := by
  cases on <;> exact ⟨by decide, by decide, by decide⟩

theorem wordEnd_render_comma (ts : List Token) : wordEnd (render (.comma :: ts)) := by
  cases ts <;> exact wordEnd_cons (by decide) _

theorem wordEnd_render_closeBracket (ts : List Token) : wordEnd (render (.closeBracket :: ts)) := by
  cases ts <;> exact wordEnd_cons (by decide) _

/-- A symbol or a quoted address ends by itself; so does a word, by its space. -/
theorem readable_cons {t : Token} {ts : List Token} (ht : t.ReadsAlone) (hn : ∀ n, t ≠ .num n) (h : Readable ts) :
    Readable (t :: ts) :=
  ⟨ht, fun n hnum => absurd hnum (hn n), h⟩

theorem readable_num_last (n : Nat) : Readable [.num n] := ⟨trivial, fun _ _ => wordEnd_nil, trivial⟩

theorem readable_num_comma (n : Nat) {ts : List Token} (h : Readable ts) : Readable (.num n :: .comma :: ts) :=
  ⟨trivial, fun _ _ => wordEnd_render_comma ts, readable_cons trivial (by simp) h⟩

theorem readable_num_closeBracket (n : Nat) {ts : List Token} (h : Readable ts) :
    Readable (.num n :: .closeBracket :: ts) :=
  ⟨trivial, fun _ _ => wordEnd_render_closeBracket ts, readable_cons trivial (by simp) h⟩

theorem readable_positionTokens (p1 p2 p3 : Pos) : Readable (positionTokens p1 p2 p3) :=
  readable_num_comma _ (readable_num_comma _ (readable_num_last _))

theorem readable_boolToken (on : Bool) : Readable [boolToken on] :=
  readable_cons (readsAlone_boolToken on) (by cases on <;> simp [boolToken]) trivial

theorem readable_listTokens (bs : List Byte) {ts : List Token} (h : Readable ts) : Readable (listTokens bs ++ ts) := by
  induction bs with
  | nil => exact readable_cons trivial (by simp) h
  | cons b bs ih =>
    cases bs with
    | nil => exact readable_num_closeBracket _ h
    | cons c bs => exact readable_num_comma _ ih

theorem readable_operandTokens {i : Instr} (h : i.addressSpellable = true) : Readable (operandTokens i) := by
  cases i with
  | stuffCmd op => exact readable_num_last _
  | stuffObj payload e =>
    exact readable_cons trivial (by simp) (readable_listTokens payload
      (readable_cons trivial (by simp) (readable_num_last _)))
  | eStubHome n | selectedStubHome n => exact readable_num_last n
  | eSetPos p1 p2 p3 | setMotorPositions p1 p2 p3 => exact readable_positionTokens p1 p2 p3
  | connect a baud =>
    have ha : 0x22 ∉ a := by simpa [Instr.addressSpellable] using h
    exact readable_cons ha (by simp) (readable_cons trivial (by simp) (readable_num_last baud))
  | autotuning on | sendTunePositionsOnOff on => exact readable_boolToken on
  | _ => trivial

/-! ## The operand readers undo `operandTokens` -/

theorem positionOperands_tokens (f : Pos → Pos → Pos → Instr) (p1 p2 p3 : Pos) :
    positionOperands f (positionTokens p1 p2 p3) = .ok (f p1 p2 p3) := by
  simp [positionTokens, positionOperands, posOperand_toNat]

theorem boolOperand_token (f : Bool → Instr) (on : Bool) : boolOperand f [boolToken on] = .ok (f on) := by
  cases on <;> simp [boolToken, boolOperand, ascii]

theorem opcodeOperand_token (f : Byte → Instr) (op : Byte) : opcodeOperand f [.num op.toNat] = .ok (f op) := by
  simp [opcodeOperand, byteOperand_toNat]

theorem operation_operandTokens {i : Instr} {m : Mnemonic} (h : instrMnemonic i = some m) :
    operation m (operandTokens i) = .ok i := by
  cases i
  all_goals cases h
  case stuffCmd op => exact opcodeOperand_token _ op
  case stuffObj payload e => exact objectOperands_tokens _ payload e
  case eSetPos p1 p2 p3 => exact positionOperands_tokens _ p1 p2 p3
  case setMotorPositions p1 p2 p3 => exact positionOperands_tokens _ p1 p2 p3
  case autotuning on => exact boolOperand_token _ on
  case sendTunePositionsOnOff on => exact boolOperand_token _ on
  all_goals rfl

theorem decodeOperation_render {i : Instr} {m : Mnemonic} (hm : instrMnemonic i = some m)
    (h : i.addressSpellable = true) :
    decodeOperation (render (.word (mnemonicText m) :: operandTokens i)) = .ok i := by
  have hr : Readable (.word (mnemonicText m) :: operandTokens i) :=
    readable_cons (readsAlone_mnemonic m) (by simp) (readable_operandTokens h)
  rw [decodeOperation, lex_render hr]
  simp only [ofTokens, mnemonicOf_text, operation_operandTokens hm]

/-! ## `decode` undoes `encode` -/

/-- What does not begin with a 128 is a spelling (R109); nothing at all is refused either way. -/
theorem decode_of_head {s : List Byte} (h : s.head? ≠ some MARKER) : decode s = decodeOperation s := by
  match s with
  | [] => rfl
  | [b] | [b, c] | b :: c :: d :: s =>
    have hb : b ≠ MARKER := by simpa using h
    simp [decode, hb]

/-- RX_OTHER_PAIR holds the codes with no row of their own (R95). -/
theorem wellFormed_rxOtherPair_iff {c : Byte} : (Instr.rxOtherPair c).wellFormed = true ↔
    c ≠ MARKER ∧ c ≠ DATA_BEGIN ∧ c ≠ MDO_END ∧ c ≠ CONFIRM := by
  simp [Instr.wellFormed, MARKER, DATA_BEGIN, MDO_END, CONFIRM, and_assoc]

/-- A well-formed pair instruction is the row of its code (R95). -/
theorem rxPairOf_code {i : Instr} {c : Byte} (hc : rxPairCode i = some c) (hi : i.wellFormed = true) :
    rxPairOf c = i := by
  cases i
  all_goals cases hc
  case rxOtherPair =>
    obtain ⟨h128, h28, h16, h4⟩ := wellFormed_rxOtherPair_iff.mp hi
    simp [rxPairOf, h128, h28, h16, h4]
  all_goals rfl

theorem instrMnemonic_of_rxPairCode_none {i : Instr} (h : rxPairCode i = none) : ∃ m, instrMnemonic i = some m := by
  cases i
  case rxEscaped128 | rxDataBegin | rxMdoEnd | rxConfirm | rxOtherPair => cases h
  all_goals exact ⟨_, rfl⟩

/-- Settles O13: a pair's two bytes give its row back, and an operation's spelling is lexed to its tokens, whose mnemonic and
operands give the operation back. -/
theorem decodeReadsBackEveryInstruction : Obligations.DecodeReadsBackEveryInstruction := by
  intro i hi
  obtain ⟨hwf, haddr⟩ : i.wellFormed = true ∧ i.addressSpellable = true := by simpa [Instr.spellable] using hi
  cases hc : rxPairCode i with
  | some c =>
    have henc : encode i = [MARKER, c] := by rw [encode, hc]
    rw [henc, decode, if_pos rfl, rxPairOf_code hc hwf]
  | none =>
    obtain ⟨m, hm⟩ := instrMnemonic_of_rxPairCode_none hc
    have henc : encode i = render (.word (mnemonicText m) :: operandTokens i) := by rw [encode, hc, hm]
    rw [henc, decode_of_head (Laws.Spelling.render_starts m _).2, decodeOperation_render hm haddr]

/-! ## What `decode` reads is well formed -/

theorem rxPairOf_wellFormed (c : Byte) : (rxPairOf c).wellFormed = true := by
  unfold rxPairOf
  repeat' split
  case isFalse => exact wellFormed_rxOtherPair_iff.mpr ⟨‹_›, ‹_›, ‹_›, ‹_›⟩
  all_goals rfl

/-- An instruction with a mnemonic is no pair, and only pairs can be ill formed (R95). -/
theorem wellFormed_of_instrMnemonic {i : Instr} {m : Mnemonic} (h : instrMnemonic i = some m) : i.wellFormed = true := by
  cases i
  case rxOtherPair => cases h
  all_goals rfl

theorem noOperand_ok {i j : Instr} {ts : List Token} (h : noOperand i ts = .ok j) : j = i := by
  unfold noOperand at h
  split at h
  all_goals cases h
  rfl

theorem natOperand_ok {f : Nat → Instr} {j : Instr} {ts : List Token} (h : natOperand f ts = .ok j) : ∃ n, j = f n := by
  unfold natOperand at h
  split at h
  all_goals cases h
  exact ⟨_, rfl⟩

theorem opcodeOperand_ok {f : Byte → Instr} {j : Instr} {ts : List Token} (h : opcodeOperand f ts = .ok j) :
    ∃ op, j = f op := by
  unfold opcodeOperand at h
  repeat' split at h
  all_goals cases h
  exact ⟨_, rfl⟩

theorem boolOperand_ok {f : Bool → Instr} {j : Instr} {ts : List Token} (h : boolOperand f ts = .ok j) :
    ∃ on, j = f on := by
  unfold boolOperand at h
  repeat' split at h
  all_goals cases h
  all_goals exact ⟨_, rfl⟩

theorem positionOperands_ok {f : Pos → Pos → Pos → Instr} {j : Instr} {ts : List Token}
    (h : positionOperands f ts = .ok j) : ∃ p1 p2 p3, j = f p1 p2 p3 := by
  unfold positionOperands at h
  repeat' split at h
  all_goals cases h
  exact ⟨_, _, _, rfl⟩

theorem objectOperands_ok {f : List Byte → Byte → Instr} {j : Instr} {ts : List Token}
    (h : objectOperands f ts = .ok j) : ∃ payload e, j = f payload e := by
  unfold objectOperands at h
  repeat' split at h
  all_goals cases h
  all_goals exact ⟨_, _, rfl⟩

theorem connectOperands_ok {f : List Byte → Nat → Instr} {j : Instr} {ts : List Token}
    (h : connectOperands f ts = .ok j) : ∃ a n, j = f a n := by
  unfold connectOperands at h
  split at h
  all_goals cases h
  exact ⟨_, _, rfl⟩

/-- An operation read under a mnemonic is an instruction with that mnemonic. -/
theorem instrMnemonic_of_operation {m : Mnemonic} {args : List Token} {i : Instr} (h : operation m args = .ok i) :
    instrMnemonic i = some m := by
  cases m
  case stuffCmd => obtain ⟨_, rfl⟩ := opcodeOperand_ok h; rfl
  case stuffObj => obtain ⟨_, _, rfl⟩ := objectOperands_ok h; rfl
  case eStubHome | selectedStubHome => obtain ⟨_, rfl⟩ := natOperand_ok h; rfl
  case eSetPos | setMotorPositions => obtain ⟨_, _, _, rfl⟩ := positionOperands_ok h; rfl
  case connect => obtain ⟨_, _, rfl⟩ := connectOperands_ok h; rfl
  case autotuning | sendTunePositionsOnOff => obtain ⟨_, rfl⟩ := boolOperand_ok h; rfl
  case reset => cases h
  all_goals obtain rfl := noOperand_ok h; rfl

theorem operation_of_decodeOperation {s : List Byte} {i : Instr} (h : decodeOperation s = .ok i) :
    ∃ m args, operation m args = .ok i := by
  unfold decodeOperation at h
  split at h
  case h_2 => cases h
  unfold ofTokens at h
  split at h
  case h_2 =>
    split at h
    · exact ⟨_, _, h⟩
    · cases h
  all_goals cases h

/-- Bytes that are an instruction are a control pair or an operation's spelling. -/
theorem decode_ok {s : List Byte} {i : Instr} (h : decode s = .ok i) :
    (∃ c, i = rxPairOf c) ∨ decodeOperation s = .ok i := by
  by_cases hs : s.head? = some MARKER
  · obtain ⟨rest, rfl⟩ := List.head?_eq_some_iff.mp hs
    match rest, h with
    | [], h => simp [decode] at h
    | [c], h => exact .inl ⟨c, by simpa [decode, eq_comm] using h⟩
    | _ :: _ :: _, h => simp [decode] at h
  · exact .inr (decode_of_head hs ▸ h)

/-- Settles O15: a pair is given the row of its code, and an operation is an instruction with a mnemonic. -/
theorem decodedInstructionsAreWellFormed : Obligations.DecodedInstructionsAreWellFormed := by
  intro bytes i h
  rcases decode_ok h with ⟨c, rfl⟩ | hop
  · exact rxPairOf_wellFormed c
  · obtain ⟨m, args, hm⟩ := operation_of_decodeOperation hop
    exact wellFormed_of_instrMnemonic (instrMnemonic_of_operation hm)

end Sys2Proof
end

section
/-! PROOFS. Set-positions text is never stuffed (R100, R101), and a TX frame is scanned to its own end and read as its
encoder command (R97, R103). -/

namespace Sys2Proof

open Sys2Proof.Machine

/-! ## Decimal text in a payload -/

theorem marker_not_mem_dec (v : Pos) : MARKER ∉ dec v := by
  intro h
  obtain ⟨d, hd, heq⟩ := decDigits_digits _ _ _ h
  have := congrArg BitVec.toNat heq
  rw [digitByte_toNat hd] at this
  simp [MARKER] at this
  omega

/-- A position has one to five digits. -/
theorem dec_length (v : Pos) : 1 ≤ (dec v).length ∧ (dec v).length ≤ 5 :=
  decDigits_length v.toNat v.toNat 4 (by have := v.isLt; omega) (Nat.le_refl _)

theorem escape_setPosPayload (p1 p2 p3 : Pos) : escape (setPosPayload p1 p2 p3) = setPosPayload p1 p2 p3 := by
  apply escape_of_not_mem
  simp [setPosPayload, ascii, marker_not_mem_dec]
  decide

theorem setPosPayload_length (p1 p2 p3 : Pos) :
    (setPosPayload p1 p2 p3).length = 8 + (dec p1).length + (dec p2).length + (dec p3).length := by
  simp [setPosPayload, ascii]
  omega

/-- Settles O5: the text holds letters, digits, blanks, CR and LF, and each position adds one to five digits. -/
theorem setPositionsPayloadIsNeverStuffed : Obligations.SetPositionsPayloadIsNeverStuffed := by
  intro p1 p2 p3
  have hlen := setPosPayload_length p1 p2 p3
  have h1 := dec_length p1
  have h2 := dec_length p2
  have h3 := dec_length p3
  exact ⟨escape_setPosPayload p1 p2 p3, hlen, by omega, by omega⟩

/-! ## Data-object frames -/

/-- An escaped payload is scanned whole, up to the control pair behind it (R103, R129). -/
theorem scanObject_escape (payload rest : List Byte) {e : Byte} (he : e ≠ MARKER) :
    scanObject (escape payload ++ MARKER :: e :: rest) = some (payload, e, rest) := by
  induction payload with
  | nil => simp [escape, scanObject, he]
  | cons b payload ih =>
    by_cases hb : b = MARKER
    · rw [hb, escape_marker, List.cons_append, List.cons_append, scanObject_marker, ih]
      rfl
    · rw [escape_other hb, List.cons_append]
      obtain ⟨c, s, hcs⟩ := List.exists_cons_of_ne_nil (l := escape payload ++ MARKER :: e :: rest) (by simp)
      rw [hcs, scanObject_other hb, ← hcs, ih]
      rfl

theorem scanObject_stuffObjFrame {payload f : List Byte} {e : Byte} (h : stuffObjFrame payload e = .ok f)
    (rest : List Byte) : scanObject (f.drop 2 ++ rest) = some (payload, e, rest) := by
  obtain ⟨he, rfl⟩ := stuffObjFrame_ok h
  simpa using scanObject_escape payload rest he

theorem decodeFrame_stuffObjFrame (p : Params) {payload f : List Byte} {e : Byte} (h : stuffObjFrame payload e = .ok f)
    (rest : List Byte) : decodeFrame p (f ++ rest) = .ok (objectCommand p payload e, rest) := by
  have hscan := scanObject_stuffObjFrame h rest
  obtain ⟨-, rfl⟩ := stuffObjFrame_ok h
  have hne : DATA_BEGIN ≠ MARKER := by decide
  rw [List.drop_succ_cons, List.drop_succ_cons, List.drop_zero] at hscan
  rw [List.cons_append, List.cons_append, decodeFrame, if_pos rfl, if_neg hne, if_pos rfl, hscan]

/-! ## The payload of a command names the command -/

/-- A decimal text is read up to the byte that ends it. -/
theorem readDigits_dec (v : Pos) {b : Byte} (hb : isDigit b = false) (s : List Byte) :
    readDigits 0 (dec v ++ b :: s) = (v.toNat, b :: s) := by
  obtain ⟨k, hk⟩ := readDigits_decDigits v.toNat v.toNat 0 (Nat.le_refl _) (b :: s)
  rw [dec, decNat, hk, readDigits, hb]
  simp

theorem setPosOperands_setPosPayload (p1 p2 p3 : Pos) :
    setPosOperands (setPosPayload p1 p2 p3) = some (p1, p2, p3) := by
  have hdrop : (setPosPayload p1 p2 p3).drop 4 = dec p1 ++ 0x20 :: (dec p2 ++ 0x20 :: (dec p3 ++ [0x0D, 0x0A])) := by
    simp [setPosPayload, ascii]
  simp [setPosOperands, hdrop, readDigits_dec, isDigit]

/-- Only a set-positions payload has the letter `P` second, so no other encoder command's payload equals it. -/
theorem setPosPayload_ne (p1 p2 p3 : Pos) {payload : List Byte} (h : payload[1]? ≠ some 0x50) :
    setPosPayload p1 p2 p3 ≠ payload := by
  rintro rfl
  exact h rfl

theorem stubHomeOperand_setPosPayload (p1 p2 p3 : Pos) : stubHomeOperand (setPosPayload p1 p2 p3) = none := by
  have hne (n : Nat) : stubHomePayload n ≠ setPosPayload p1 p2 p3 :=
    (setPosPayload_ne p1 p2 p3 (by simp [stubHomePayload, ascii])).symm
  simp [stubHomeOperand, hne]

theorem objectCommand_setPosPayload (p : Params) (p1 p2 p3 : Pos) :
    objectCommand p (setPosPayload p1 p2 p3) p.motorSet = .eSetPos p1 p2 p3 := by
  have hatc (on : Bool) : setPosPayload p1 p2 p3 ≠ atcPayload p.polarity on :=
    setPosPayload_ne p1 p2 p3 (by cases p.polarity <;> cases on <;> decide)
  have hletter (c : Char) : setPosPayload p1 p2 p3 ≠ ascii ['A', 'T', 'C', ' ', c] :=
    setPosPayload_ne p1 p2 p3 (by simp [ascii])
  simp [objectCommand, hatc, hletter, stubHomeOperand_setPosPayload, setPosOperands_setPosPayload]

theorem objectCommand_atcPayload (p : Params) (on : Bool) :
    objectCommand p (atcPayload p.polarity on) GENERIC_END = if on then .eAtcOn else .eAtcOff := by
  unfold objectCommand
  cases p.polarity <;> cases on <;> rfl

/-- The stubs 0 to 3 (`stubHomeOperand`), of which the encoder sends 1 to 3 (R99, R147). -/
theorem objectCommand_stubHomePayload (p : Params) {n : Nat} (hn : n = 1 ∨ n = 2 ∨ n = 3) :
    objectCommand p (stubHomePayload n) GENERIC_END = .eStubHome n := by
  unfold objectCommand
  rcases hn with rfl | rfl | rfl
  all_goals cases p.polarity <;> rfl

/-- Settles O14: a data-object frame gives its payload and end code back, and those of an encoder command name it. -/
theorem framesDecodeToTheirCommand : Obligations.FramesDecodeToTheirCommand := by
  refine ⟨fun p i f rest _ hframe hcmd hobj => ?command, fun p payload e f rest h => ?object⟩
  case object => exact ⟨decodeFrame_stuffObjFrame p h rest, scanObject_stuffObjFrame h rest⟩
  case command =>
    have hdata {payload : List Byte} {e : Byte} (h : some (stuffObjFrame payload e) = some (.ok f))
        (hi : objectCommand p payload e = i) : decodeFrame p (f ++ rest) = .ok (i, rest) :=
      hi ▸ decodeFrame_stuffObjFrame p (Option.some.inj h) rest
    cases i
    case stuffCmd op => exact absurd rfl (hcmd op)
    case stuffObj payload e => exact absurd rfl (hobj payload e)
    case eStop | eHomeAll | eMread => cases hframe; rfl
    case eAtcOn => exact hdata hframe (objectCommand_atcPayload p true)
    case eAtcOff => exact hdata hframe (objectCommand_atcPayload p false)
    case eAtcStep | ePushOn | ePushOff =>
      refine hdata hframe ?_
      unfold objectCommand
      cases p.polarity <;> rfl
    case eStubHome n =>
      have hn := (isStub_iff n).mp (isStub_of_frameStubHome (Option.some.inj hframe))
      refine hdata (payload := stubHomePayload n) (e := GENERIC_END) ?_ ?_
      · rw [← hframe, frameOf, frameStubHome, if_pos ((isStub_iff n).mpr hn)]
      · exact objectCommand_stubHomePayload p hn
    case eSetPos p1 p2 p3 => exact hdata hframe (objectCommand_setPosPayload p p1 p2 p3)
    all_goals cases hframe

/-- Settles O16: two of the words and `close` are the tests' own vectors (E1, E6). -/
theorem writtenOutWordsDecode : Obligations.WrittenOutWordsDecode :=
  ⟨Tests.test_word_E1, Tests.test_word_E6, by decide, by decide, Tests.test_decode_close, by decide⟩

end Sys2Proof
end

section
/-! PROOFS. The five control pairs as instructions in an active read with no older events (R179 to R181, R185 to R189,
log 13): in Sync the pair's second byte is classified, inside an object it is a marked byte. -/

namespace Sys2Proof.Machine

theorem with_st_eq_self {s : State} {x : PState} (h : s.st = x) : { s with st := x } = s := by
  subst h
  rfl

/-! ## A pair in Sync -/

theorem exec_pair_sync {i : Instr} {c : Byte} {s : State} (hi : rxPairCode i = some c) (hr : s.rx = [])
    (hs : s.st = .sync) : exec i s = .next (inClassify c { s with st := .classify }) := by
  rw [exec_pair hi, feedPair_sync hs hr]

/-- Outside an object an escaped pair is skipped (R179). -/
theorem inClassify_marker {s : State} (hs : s.st = .sync) : inClassify MARKER { s with st := .classify } = s :=
  (if_pos rfl).trans (with_st_eq_self hs)

/-- A confirmation read skips every pair but the confirmation (R180). -/
theorem inClassify_confirm_skip {s : State} {c : Byte} (hs : s.st = .sync) (hk : s.kind = .confirm) (hc : c ≠ CONFIRM) :
    inClassify c { s with st := .classify } = s := by
  by_cases hm : c = MARKER
  · rw [hm, inClassify_marker hs]
  · rw [inClassify, if_neg hm, if_pos hk, classifyConfirm, if_neg hc]
    exact with_st_eq_self hs

/-- The confirmation ends a confirmation read (R180). -/
theorem inClassify_confirm {s : State} (hk : s.kind = .confirm) :
    inClassify CONFIRM { s with st := .classify } = finish .okConfirm s := by
  rw [inClassify, if_neg (by decide), if_pos hk]
  rfl

/-- In an object read every other pair outside an object than `[128, 128]` and DATA_BEGIN is a resync event (R181). -/
theorem inClassify_resync {s : State} {c : Byte} (hk : s.kind ≠ .confirm) (hm : c ≠ MARKER) (hd : c ≠ DATA_BEGIN) :
    inClassify c { s with st := .classify } = resyncEvent (fun t => { t with st := .sync }) { s with st := .classify } := by
  rw [inClassify, if_neg hm, if_neg hk, classifyObject, if_neg hd]

/-- DATA_BEGIN opens an object (R181). -/
theorem inClassify_dataBegin {s : State} (hk : s.kind ≠ .confirm) :
    inClassify DATA_BEGIN { s with st := .classify } = { s with buf := [], st := .payload } := by
  rw [inClassify, if_neg (by decide), if_neg hk]
  rfl

/-- Settles O28: each pair is classified, and all but the confirmation are skipped. -/
theorem pairsInAConfirmationRead : Obligations.PairsInAConfirmationRead := by
  intro s c hr hs hk hwf
  obtain ⟨-, -, -, hconfirm⟩ := wellFormed_rxOtherPair_iff.mp hwf
  have hskip {i : Instr} {b : Byte} (hi : rxPairCode i = some b) (hb : b ≠ CONFIRM) : exec i s = .next s := by
    rw [exec_pair_sync hi hr hs, inClassify_confirm_skip hs hk hb]
  refine ⟨hskip rfl (by decide), hskip rfl (by decide), hskip rfl (by decide), hskip rfl hconfirm, ?_⟩
  rw [exec_pair_sync rfl hr hs, inClassify_confirm hk]
  rfl

/-- R175's test on the counter, as the statements about the pairs write it. -/
theorem overResync_eq (p : Params) (n : Nat) :
    overResync p n = (match p.maxResync with | some m => decide (m < n) | none => false) := by
  cases h : p.maxResync with
  | none => exact overResync_inf h n
  | some m => exact overResync_some h n

/-- Settles O29: each pair is classified, and the last three are one and the same resync event. -/
theorem pairsOutsideAnObject : Obligations.PairsOutsideAnObject := by
  intro s c hr hs hk hwf exceeded resynced
  obtain ⟨hm, hd, -, -⟩ := wellFormed_rxOtherPair_iff.mp hwf
  have hresync {i : Instr} {b : Byte} (hi : rxPairCode i = some b) (hm : b ≠ MARKER) (hd : b ≠ DATA_BEGIN) :
      exec i s = resynced := by
    rw [exec_pair_sync hi hr hs, inClassify_resync hk hm hd, resyncEvent_eq, overResync_eq]
    exact apply_ite _ _ _ _
  refine ⟨?escaped, ?begin, hresync rfl (by decide) (by decide), hresync rfl (by decide) (by decide), hresync rfl hm hd⟩
  case escaped => rw [exec_pair_sync rfl hr hs, inClassify_marker hs]
  case begin => rw [exec_pair_sync rfl hr hs, inClassify_dataBegin hk]

/-! ## A pair inside an object -/

theorem exec_pair_payload {i : Instr} {c : Byte} {s : State} (hi : rxPairCode i = some c) (hr : s.rx = [])
    (hs : s.st = .payload) : exec i s = inPmark c { s with st := .pmark } := by
  rw [exec_pair hi, feedPair_payload hs hr]

/-- `[128, 128]` is one payload byte 128 (R185). -/
theorem inPmark_marker (s : State) :
    inPmark MARKER s = .next (appendByte MARKER (fun t => { t with st := .payload }) s) := if_pos rfl

/-- DATA_BEGIN restarts the object (R186). -/
theorem inPmark_dataBegin (s : State) :
    inPmark DATA_BEGIN s = .next (resyncEvent (fun t => { t with buf := [], st := .payload }) s) := rfl

/-- Every other pair abandons the object (R187). -/
theorem inPmark_abandon {c : Byte} (hm : c ≠ MARKER) (he : c ≠ MDO_END) (hd : c ≠ DATA_BEGIN) (s : State) :
    inPmark c s = .next (resyncEvent (fun t => { t with buf := [], st := .sync }) s) := by
  rw [inPmark, if_neg hm, if_neg he, if_neg hd]

/-- A complete object ends the read with its payload or the positions in it (R189); a confirmation read has none. -/
theorem completeObject_eq {s : State} (hk : s.kind ≠ .confirm) :
    completeObject s = .next (finish (if s.kind = .object then .okObject s.buf else motorResult s.buf) s) := by
  unfold completeObject
  cases h : s.kind with
  | object | motor => rfl
  | confirm => exact absurd h hk

/-- Settles O30: each pair is a marked byte, and the restart and the two that abandon the object are resync events. -/
theorem pairsInsideAnObject : Obligations.PairsInsideAnObject := by
  intro s c hr hs hk hwf desync exceeded resynced
  obtain ⟨hm, hd, he, -⟩ := wellFormed_rxOtherPair_iff.mp hwf
  have hresync (after : PState) : .next (resyncEvent (fun t => { t with buf := [], st := after })
      { s with st := .pmark }) = resynced after := by
    rw [resyncEvent_eq, overResync_eq]
    exact apply_ite _ _ _ _
  have habandon {i : Instr} {b : Byte} (hi : rxPairCode i = some b) (hm : b ≠ MARKER) (he : b ≠ MDO_END)
      (hd : b ≠ DATA_BEGIN) : exec i s = resynced .sync := by
    rw [exec_pair_payload hi hr hs, inPmark_abandon hm he hd, hresync]
  refine ⟨?escaped, ?restart, habandon rfl (by decide) (by decide) (by decide), habandon rfl hm he hd, ?complete⟩
  case escaped =>
    rw [exec_pair_payload rfl hr hs, inPmark_marker, appendByte]
    refine (apply_ite _ _ _ _).trans ?_
    rw [← with_st_eq_self (s := { s with buf := s.buf ++ [128] }) hs]
    rfl
  case restart => rw [exec_pair_payload rfl hr hs, inPmark_dataBegin, hresync]
  case complete =>
    rw [exec_pair_payload rfl hr hs]
    exact completeObject_eq (s := { s with st := .pmark }) hk

end Sys2Proof.Machine
end

section
/-! PROOFS. The transactions with a read of their own kind (R223 to R225): the frame of each, and the template run up to the
start of its read. -/

namespace Sys2Proof.Machine

theorem frameHomeAll_eq : frameHomeAll = .ok [128, 69] := rfl

theorem frameMread_eq : frameMread = .ok [128, 74] := rfl

/-- The text of the positions is sent as it stands (R101, R150). -/
theorem frameSetPos_eq {p : Params} (hp : p.wf = true) (p1 p2 p3 : Pos) : frameSetPos p p1 p2 p3 =
    .ok ([128, 28, 0x4D, 0x50, 0x4F, 0x20] ++ dec p1 ++ [0x20] ++ dec p2 ++ [0x20] ++ dec p3
      ++ [0x0D, 0x0A, 128, p.motorSet]) := by
  have hset : p.motorSet ≠ MARKER := by
    simp only [Params.wf, Bool.and_eq_true, bne_iff_ne] at hp
    exact hp.1
  rw [frameSetPos, stuffObjFrame, if_neg hset, escape_setPosPayload]
  simp [setPosPayload, ascii, MARKER, DATA_BEGIN]

/-- Settles O42: each of the three is the common template with no check of its own, run up to the start of its read. -/
theorem motorTransactionsWriteAndRead : Obligations.MotorTransactionsWriteAndRead := by
  intro s p1 p2 p3 hp hb hs hc hw started
  have hrun {i : Instr} (frame : Params → Except ErrCode (List Byte)) {bytes : List Byte} (x : Txn)
      (hexec : exec i s = whenIdle s fun u => .next (transact true (frame u.params) noPreWrite (some x) u))
      (hframe : frame s.params = .ok bytes) : exec i s = .next { started with
        cur := some x, kind := readOf s.params x, tx := s.tx ++ bytes } :=
    exec_of_whenIdle hb hs hexec (hframe ▸ transact_start hc hw (noPreWrite_eq _) bytes x)
  exact ⟨hrun (fun p => frameSetPos p p1 p2 p3) .setPositions rfl (frameSetPos_eq hp p1 p2 p3),
    hrun (fun _ => frameMread) .readPositions rfl frameMread_eq,
    hrun (fun _ => frameHomeAll) .homeAll rfl frameHomeAll_eq⟩

end Sys2Proof.Machine
end

section
/-! PROOFS. Runs of an active read over the bytes of a frame or of noise (R178 to R185, R189): each byte is one step, and the
lemmas say what the registers hold when the bytes are used up. -/

namespace Sys2Proof.Machine

theorem steps_one (s : State) : steps 1 s = step s := by
  rw [steps_succ]
  cases step s <;> rfl

/-- A run that continues another. -/
theorem steps_trans {m n : Nat} {s t : State} {o : Step} (h : steps m s = .next t) (ho : steps n t = o) :
    steps (m + n) s = o := by
  rw [steps_add, h, andThen_next, ho]

/-! ## Inside an object -/

/-- A plain byte is appended (R183, R184). -/
theorem step_payload_plain {s : State} (hw : hostWaits s) (hs : s.st = .payload) {b : Byte} (hb : b ≠ MARKER)
    {es : List RxEvent} (hr : s.rx = .byte b :: es) (hroom : s.buf.length < s.params.maxPayload) :
    step s = .next { s with rx := es, buf := s.buf ++ [b], st := .payload } := by
  rw [step_payload hw hs hr, inPayload, if_neg hb, appendByte, if_neg (by simpa using hroom.ne), ← hs]

theorem step_payload_marker {s : State} (hw : hostWaits s) (hs : s.st = .payload) {es : List RxEvent}
    (hr : s.rx = .byte MARKER :: es) : step s = .next { s with rx := es, st := .pmark } := by
  rw [step_payload hw hs hr, inPayload, if_pos rfl]

theorem step_pmark_marker {s : State} (hw : hostWaits s) (hs : s.st = .pmark) {es : List RxEvent}
    (hr : s.rx = .byte MARKER :: es) (hroom : s.buf.length < s.params.maxPayload) :
    step s = .next { s with rx := es, buf := s.buf ++ [MARKER], st := .payload } := by
  rw [step_pmark hw hs hr, inPmark, if_pos rfl, appendByte, if_neg (by simpa using hroom.ne)]

theorem step_pmark_mdoEnd {s : State} (hw : hostWaits s) (hs : s.st = .pmark) {es : List RxEvent}
    (hr : s.rx = .byte MDO_END :: es) : step s = completeObject { s with rx := es } := step_pmark hw hs hr

/-- The steps that take one byte of a payload, escaped where it is a 128 (R182 to R185). -/
theorem steps_payload_unit {s : State} (hw : hostWaits s) (hs : s.st = .payload) {b : Byte} {es : List RxEvent}
    (hr : s.rx = bytesIn (escape [b]) ++ es) (hroom : s.buf.length < s.params.maxPayload) :
    steps (escape [b]).length s = .next { s with rx := es, buf := s.buf ++ [b], st := .payload } := by
  by_cases hb : b = MARKER
  · subst hb
    exact (steps_of_step (step_payload_marker hw hs hr) 1).trans
      ((steps_one _).trans (step_pmark_marker (by exact hw) rfl rfl hroom))
  · rw [escape_other hb] at hr ⊢
    exact (steps_one s).trans (step_payload_plain hw hs hb hr hroom)

theorem escape_cons (b : Byte) (p : List Byte) : escape (b :: p) = escape [b] ++ escape p := by
  by_cases hb : b = MARKER
  · rw [hb, escape_marker, escape_marker]
    rfl
  · rw [escape_other hb, escape_other hb]
    rfl

/-- An escaped payload that fits is collected whole, one step for each byte on the wire (R127). -/
theorem steps_payload_escape {s : State} (hw : hostWaits s) (hs : s.st = .payload) {p : List Byte} {es : List RxEvent}
    (hr : s.rx = bytesIn (escape p) ++ es) (hroom : s.buf.length + p.length ≤ s.params.maxPayload) :
    steps (escape p).length s = .next { s with rx := es, buf := s.buf ++ p, st := .payload } := by
  induction p generalizing s with
  | nil =>
    have hr : s.rx = es := hr
    rw [List.append_nil, ← hs, ← hr]
    rfl
  | cons b p ih =>
    rw [List.length_cons] at hroom
    rw [escape_cons, bytesIn_append, List.append_assoc] at hr
    rw [escape_cons, List.length_append, List.append_cons]
    refine steps_trans (steps_payload_unit hw hs hr (by omega)) ?_
    refine ih (s := { s with rx := bytesIn (escape p) ++ es, buf := s.buf ++ [b], st := .payload }) hw rfl rfl ?_
    simp only [List.length_append, List.length_singleton]
    omega

/-! ## A whole object -/

/-- Two bytes in Sync are a pair where the first is a 128 (R178). -/
theorem steps_sync_pair {s : State} (hw : hostWaits s) (hs : s.st = .sync) {c : Byte} {es : List RxEvent}
    (hr : s.rx = .byte MARKER :: .byte c :: es) :
    steps 2 s = .next (inClassify c { s with rx := es, st := .classify }) :=
  (steps_of_step (step_sync hw hs hr) 1).trans ((steps_one _).trans (step_classify (by exact hw) rfl rfl))

/-- DATA_BEGIN in Sync opens an object (R181). -/
theorem steps_sync_dataBegin {s : State} (hw : hostWaits s) (hs : s.st = .sync) (hk : s.kind ≠ .confirm)
    {es : List RxEvent} (hr : s.rx = .byte MARKER :: .byte DATA_BEGIN :: es) :
    steps 2 s = .next { s with rx := es, buf := [], st := .payload } :=
  (steps_sync_pair hw hs hr).trans (congrArg _ (inClassify_dataBegin (s := { s with rx := es }) hk))

/-- MDO_END inside an object completes it (R182, R188). -/
theorem steps_payload_mdoEnd {s : State} (hw : hostWaits s) (hs : s.st = .payload) {es : List RxEvent}
    (hr : s.rx = .byte MARKER :: .byte MDO_END :: es) :
    steps 2 s = completeObject { s with rx := es, st := .pmark } :=
  (steps_of_step (step_payload_marker hw hs hr) 1).trans ((steps_one _).trans (step_pmark_mdoEnd (by exact hw) rfl rfl))

/-- An object read in Sync takes the frame of a payload that fits in exactly the frame's steps, and completes it (R127). -/
theorem steps_sync_frame {s : State} (hw : hostWaits s) (hs : s.st = .sync) (hk : s.kind ≠ .confirm)
    {p f : List Byte} {es : List RxEvent} (hf : stuffObjFrame p MDO_END = .ok f) (hr : s.rx = bytesIn f ++ es)
    (hroom : p.length ≤ s.params.maxPayload) :
    steps f.length s = completeObject { s with rx := es, buf := p, st := .pmark } := by
  obtain ⟨-, rfl⟩ := stuffObjFrame_ok hf
  have hlen : (MARKER :: DATA_BEGIN :: (escape p ++ [MARKER, MDO_END])).length = 2 + ((escape p).length + 2) := by
    simp
    omega
  have hrx : s.rx = .byte MARKER :: .byte DATA_BEGIN ::
      (bytesIn (escape p) ++ .byte MARKER :: .byte MDO_END :: es) := by
    simp [hr, bytesIn]
  rw [hlen]
  refine steps_trans (steps_sync_dataBegin hw hs hk hrx) ?_
  refine steps_trans (steps_payload_escape (by exact hw) rfl rfl ?_) (steps_payload_mdoEnd (by exact hw) rfl rfl)
  simpa using hroom

/-- Settles O35: the frame is taken whole, and the completed object is decoded. -/
theorem motorReadReturnsThePositions : Obligations.MotorReadReturnsThePositions := by
  intro s hst a1 b1 a2 b2 a3 b3 rest f es hw hb hs hf hr hroom
  have hstart : exec .rdMotor s = .next (startRead .motor s) := exec_of_whenIdle hb hs rfl rfl
  rw [hstart, andThen_next, steps_sync_frame (s := startRead .motor s) hw rfl (by simp) hf hr (by simp; omega)]
  rfl

/-! ## A confirmation read -/

theorem step_sync_plain {s : State} (hw : hostWaits s) (hs : s.st = .sync) {b : Byte} (hb : b ≠ MARKER)
    {es : List RxEvent} (hr : s.rx = .byte b :: es) : step s = .next { s with rx := es } := by
  rw [step_sync hw hs hr, inSync, if_neg hb]

/-- A confirmation read skips noise that ends on a unit and holds no confirmation, one step for each byte (R92, R180). -/
theorem steps_sync_skipped {s : State} (hw : hostWaits s) (hs : s.st = .sync) (hk : s.kind = .confirm)
    {noise : List Byte} {es : List RxEvent} (hn : skippedByConfirm noise = true) (hr : s.rx = bytesIn noise ++ es) :
    steps noise.length s = .next { s with rx := es } := by
  induction noise using skippedByConfirm.induct generalizing s with
  | case1 =>
    have hr : s.rx = es := hr
    rw [← hr]
    rfl
  | case2 b =>
    have hb : b ≠ MARKER := by simpa [skippedByConfirm] using hn
    exact (steps_one s).trans (step_sync_plain hw hs hb hr)
  | case3 c noise ih =>
    obtain ⟨hc, hn⟩ : c ≠ CONFIRM ∧ skippedByConfirm noise = true := by simpa [skippedByConfirm] using hn
    have hpair := steps_sync_pair (es := bytesIn noise ++ es) hw hs hr
    rw [inClassify_confirm_skip (s := { s with rx := bytesIn noise ++ es }) hs hk hc] at hpair
    rw [List.length_cons, List.length_cons, Nat.add_assoc, Nat.add_comm]
    exact steps_trans hpair (ih (by exact hw) hs hk hn rfl)
  | case4 b c noise hb ih =>
    rw [skippedByConfirm, if_neg hb] at hn
    exact (steps_of_step (step_sync_plain hw hs hb hr) _).trans (ih hw hs hk hn rfl)

/-- The confirmation ends a confirmation read (R180). -/
theorem steps_sync_confirm {s : State} (hw : hostWaits s) (hs : s.st = .sync) (hk : s.kind = .confirm)
    {es : List RxEvent} (hr : s.rx = .byte MARKER :: .byte CONFIRM :: es) :
    steps 2 s = .next { s with rx := es, buf := [], st := .idle, res := .okConfirm } :=
  (steps_sync_pair hw hs hr).trans (congrArg _ (inClassify_confirm (s := { s with rx := es }) hk))

/-- Settles O36: the noise is skipped, and the confirmation ends the read. -/
theorem confirmationReadSkipsToTheConfirmation : Obligations.ConfirmationReadSkipsToTheConfirmation := by
  intro s noise es hw hb hs hn hr
  have hstart : exec .rdConfirm s = .next (startRead .confirm s) := exec_of_whenIdle hb hs rfl rfl
  rw [bytesIn_append, List.append_assoc] at hr
  have hskip := steps_sync_skipped (s := startRead .confirm s) hw rfl rfl hn hr
  rw [hstart, andThen_next]
  exact steps_trans hskip (steps_sync_confirm (by exact hw) rfl rfl rfl)

end Sys2Proof.Machine
end

section
/-! PROOFS. The Frame Codec: `escape` and `unescape` undo each other, and an escaped payload is all escaped units, so the
unit scan passes over it (R121, R125, R126, R129). -/

namespace Sys2Proof.Machine

/-! ## `escape` and `unescape` -/

/-- `escape` works byte by byte (R120). -/
theorem escape_append (p q : List Byte) : escape (p ++ q) = escape p ++ escape q := by
  induction p with
  | nil => rfl
  | cons b p ih => rw [List.cons_append, escape_cons, ih, escape_cons b p, List.append_assoc]

/-- Each 128 of the payload adds one byte (R121). -/
theorem length_escape (p : List Byte) : (escape p).length = p.length + p.count MARKER := by
  induction p with
  | nil => rfl
  | cons b p ih =>
    by_cases hb : b = MARKER
    · rw [hb, escape_marker, List.count_cons_self]
      simp only [List.length_cons]
      omega
    · rw [escape_other hb, List.count_cons_of_ne hb]
      simp only [List.length_cons]
      omega

/-- R125. -/
theorem unescape_escape (p : List Byte) : unescape (escape p) = some p := by
  induction p with
  | nil => rfl
  | cons b p ih =>
    by_cases hb : b = MARKER
    · rw [hb, escape_marker, unescape_marker, ih]
      rfl
    · rw [escape_other hb, unescape_other hb, ih]
      rfl

theorem prependByte_eq_some {b : Byte} {o : Option (List Byte)} {p : List Byte} (h : prependByte b o = some p) :
    ∃ q, o = some q ∧ p = b :: q := by
  cases o with
  | none => cases h
  | some q => cases h; exact ⟨q, rfl, rfl⟩

/-- R126, along the units that `unescape` reads. -/
theorem escape_of_unescape {s p : List Byte} (h : unescape s = some p) : escape p = s := by
  induction s using unescape.induct generalizing p with
  | case1 => cases h; rfl
  | case2 => simp [unescape] at h
  | case3 b hb =>
    rw [unescape, if_neg hb] at h
    cases h
    exact escape_other hb []
  | case4 s ih =>
    rw [unescape_marker] at h
    obtain ⟨q, hq, rfl⟩ := prependByte_eq_some h
    rw [escape_marker, ih hq]
  | case5 c s hc => simp [unescape, hc] at h
  | case6 b c s hb ih =>
    rw [unescape_other hb] at h
    obtain ⟨q, hq, rfl⟩ := prependByte_eq_some h
    rw [escape_other hb, ih hq]

/-- Settles O1. -/
theorem escapeAndUnescapeAreInverse : Obligations.EscapeAndUnescapeAreInverse :=
  ⟨unescape_escape, fun _ _ => escape_of_unescape⟩

/-! ## The unit scan -/

/-- The unit scan passes over an escaped payload and ends on a unit's end, whatever stands behind (R121, R129). -/
theorem firstControlPair_escape_append (p s : List Byte) (k : Nat) :
    firstControlPair k (escape p ++ s) = firstControlPair (k + (escape p).length) s := by
  induction p generalizing k with
  | nil => rfl
  | cons b p ih =>
    by_cases hb : b = MARKER
    · rw [hb, escape_marker, List.cons_append, List.cons_append, firstControlPair_marker, ih, List.length_cons,
        List.length_cons, Nat.add_assoc k 2, Nat.add_comm 2]
    · rw [escape_other hb, List.cons_append, firstControlPair_other hb, ih, List.length_cons, Nat.add_assoc k 1,
        Nat.add_comm 1]

/-- With nothing behind it the scan finds no control pair. -/
theorem firstControlPair_escape (p : List Byte) (k : Nat) : firstControlPair k (escape p) = none := by
  have h := firstControlPair_escape_append p [] k
  rwa [List.append_nil] at h

/-- A control pair in front is the first (R121). -/
theorem firstControlPair_control {e : Byte} (he : e ≠ MARKER) (k : Nat) (s : List Byte) :
    firstControlPair k (MARKER :: e :: s) = some (k, e) := by
  rw [firstControlPair, if_pos rfl, if_neg he]

/-- Settles O2. -/
theorem escapeLengthAndUnits : Obligations.EscapeLengthAndUnits := by
  intro p
  refine ⟨length_escape p, firstControlPair_escape p 0, ?_⟩
  rw [unescape_escape]
  exact Option.some_ne_none p

/-- Settles O3: behind the opening pair the scan passes over the payload and meets the closing pair. -/
theorem firstControlPairClosesTheObject : Obligations.FirstControlPairClosesTheObject := by
  intro p e f hf
  obtain ⟨he, rfl⟩ := stuffObjFrame_ok hf
  rw [List.drop_succ_cons, List.drop_succ_cons, List.drop_zero, firstControlPair_escape_append,
    firstControlPair_control he]

end Sys2Proof.Machine
end

section
/-! PROOFS. The pure operations of a ready block: the frame or the error on the result port, and nothing else written
(R123, R124, R152, log 9). -/

namespace Sys2Proof.Machine

/-- A frame that an operand's check can refuse (R123, R124). -/
theorem giveBack_ite {c : Prop} [Decidable c] (e : ErrCode) (frame : List Byte) (s : State) :
    giveBack (if c then .error e else .ok frame) s = { s with ret := if c then .error e else .frame frame } := by
  split
  · rfl
  · rfl

/-- Settles O6. -/
theorem stuffCmdReturnsItsFrame : Obligations.StuffCmdReturnsItsFrame := by
  intro s op hb hs
  rw [exec_pure rfl hb hs, stuffCmdFrame, giveBack_ite]
  rfl

/-- Settles O7. -/
theorem stuffObjReturnsItsFrame : Obligations.StuffObjReturnsItsFrame := by
  intro s p e hb hs
  rw [exec_pure rfl hb hs, stuffObjFrame, giveBack_ite]
  rfl

/-- Settles O12: the value is that of `frameOf`, which sees the parameters and the operands only. -/
theorem pureOperationsDependOnTheirOperandsOnly : Obligations.PureOperationsDependOnTheirOperandsOnly := by
  intro i s t hframe hparams hbs hss hbt hst
  obtain ⟨r, hr⟩ := Option.ne_none_iff_exists'.mp hframe
  obtain ⟨q, hq, hgive⟩ := giveBack_eq r
  refine ⟨q, ?_, ?_, hq⟩
  · rw [exec_pure hr hbs hss, hgive]
  · rw [exec_pure (hparams ▸ hr) hbt hst, hgive]

end Sys2Proof.Machine
end

section
/-! PROOFS. An object read on a framed payload (R127): one that fits is returned after exactly the frame's bytes, and
one byte too many ends the read. -/

namespace Sys2Proof.Machine

theorem step_payload_full {s : State} (hw : hostWaits s) (hs : s.st = .payload) {b : Byte} (hb : b ≠ MARKER)
    {es : List RxEvent} (hr : s.rx = .byte b :: es) (hfull : s.buf.length = s.params.maxPayload) :
    step s = .next (finish (.err .protocolDesync) { s with rx := es }) := by
  rw [step_payload hw hs hr, inPayload, if_neg hb, appendByte, if_pos hfull]

theorem step_pmark_full {s : State} (hw : hostWaits s) (hs : s.st = .pmark) {es : List RxEvent}
    (hr : s.rx = .byte MARKER :: es) (hfull : s.buf.length = s.params.maxPayload) :
    step s = .next (finish (.err .protocolDesync) { s with rx := es }) := by
  rw [step_pmark hw hs hr, inPmark_marker, appendByte, if_pos hfull]

/-- A payload byte, escaped or not, that finds the buffer full ends the read (R183 to R185). -/
theorem steps_payload_full {s : State} (hw : hostWaits s) (hs : s.st = .payload) {b : Byte} {es : List RxEvent}
    (hr : s.rx = bytesIn (escape [b]) ++ es) (hfull : s.buf.length = s.params.maxPayload) :
    steps (escape [b]).length s = .next (finish (.err .protocolDesync) { s with rx := es }) := by
  by_cases hb : b = MARKER
  · subst hb
    exact (steps_of_step (step_payload_marker hw hs hr) 1).trans
      ((steps_one _).trans (step_pmark_full (by exact hw) rfl rfl hfull))
  · rw [escape_other hb] at hr ⊢
    exact (steps_one s).trans (step_payload_full hw hs hb hr hfull)

/-- A payload whose front `q` fills the buffer is taken up to the byte behind `q`, which ends the read (R127, R184). -/
theorem steps_payload_overflow {s : State} (hw : hostWaits s) (hs : s.st = .payload) {q rest : List Byte} {b : Byte}
    {es : List RxEvent} (hr : s.rx = bytesIn (escape (q ++ b :: rest)) ++ es)
    (hfills : s.buf.length + q.length = s.params.maxPayload) :
    steps ((escape q).length + (escape [b]).length) s =
      .next (finish (.err .protocolDesync) { s with rx := bytesIn (escape rest) ++ es }) := by
  rw [escape_append, escape_cons, bytesIn_append, bytesIn_append, List.append_assoc, List.append_assoc] at hr
  exact steps_trans (steps_payload_escape hw hs hr hfills.le)
    (steps_payload_full (by exact hw) rfl rfl (by rw [List.length_append, hfills]))

/-- A list longer than `n` is `n` elements, one more, and a rest. -/
theorem exists_append_cons_of_lt_length {n : Nat} {p : List Byte} (h : n < p.length) :
    ∃ q b rest, p = q ++ b :: rest ∧ q.length = n :=
  ⟨p.take n, p[n], p.drop (n + 1), by simp, by simp [h.le]⟩

/-- An object read in Sync ends within the frame of a payload that does not fit (R127). -/
theorem steps_sync_frame_overflow {s : State} (hw : hostWaits s) (hs : s.st = .sync) (hk : s.kind ≠ .confirm)
    {p f : List Byte} {e : Byte} {es : List RxEvent} (hf : stuffObjFrame p e = .ok f) (hr : s.rx = bytesIn f ++ es)
    (hlong : s.params.maxPayload < p.length) :
    ∃ n es', n ≤ f.length ∧ steps n s = .next (finish (.err .protocolDesync) { s with rx := es' }) := by
  obtain ⟨-, rfl⟩ := stuffObjFrame_ok hf
  obtain ⟨q, b, rest, rfl, hq⟩ := exists_append_cons_of_lt_length hlong
  have hrx : s.rx = .byte MARKER :: .byte DATA_BEGIN ::
      (bytesIn (escape (q ++ b :: rest)) ++ (bytesIn [MARKER, e] ++ es)) := by
    simp [hr, bytesIn]
  have hwithin : 2 + ((escape q).length + (escape [b]).length) ≤
      (MARKER :: DATA_BEGIN :: (escape (q ++ b :: rest) ++ [MARKER, e])).length := by
    rw [escape_append, escape_cons b rest]
    simp only [List.length_cons, List.length_append]
    omega
  exact ⟨_, bytesIn (escape rest) ++ (bytesIn [MARKER, e] ++ es), hwithin,
    steps_trans (steps_sync_dataBegin hw hs hk hrx)
      (steps_payload_overflow (by exact hw) rfl rfl (by rw [List.length_nil, Nat.zero_add, hq]))⟩

/-- Settles O34: a payload that fits is taken whole, and one that does not ends the read at the byte too many. -/
theorem objectReadReturnsThePayload : Obligations.ObjectReadReturnsThePayload := by
  intro s p f es hw hb hs hf hr
  have hstart : exec .rdObject s = .next (startRead .object s) := exec_of_whenIdle hb hs rfl rfl
  rw [hstart]
  refine ⟨fun hroom => ?fits, fun hlong => ?overflows⟩
  case fits =>
    rw [andThen_next, steps_sync_frame (s := startRead .object s) hw rfl (by simp) hf hr hroom]
    rfl
  case overflows => exact steps_sync_frame_overflow (s := startRead .object s) hw rfl (by simp) hf hr hlong

end Sys2Proof.Machine
end

section
/-! PROOFS. The Command Encoder: `dec` writes a position in decimal (R140), and each encoder command of a ready block leaves
its frame, or the error of a bad stub id, on the result port (R141 to R150, log 9). -/

namespace Sys2Proof.Machine

/-! ## Decimal text -/

/-- The digits of a position are read with nothing left over. -/
theorem readDigits_dec_eq (v : Pos) : readDigits 0 (dec v) = (v.toNat, []) := by
  obtain ⟨k, hk⟩ := readDigits_decDigits v.toNat v.toNat 0 (Nat.le_refl _) []
  rw [List.append_nil] at hk
  rw [dec, decNat, hk, readDigits, Nat.zero_mul, Nat.zero_add]

/-- The bytes of decimal text are 0x30 to 0x39 (R101, R140). -/
theorem dec_byte_bounds {v : Pos} {b : Byte} (hb : b ∈ dec v) : 0x30 ≤ b.toNat ∧ b.toNat ≤ 0x39 := by
  obtain ⟨d, hd, rfl⟩ := decDigits_digits _ _ b hb
  rw [digitByte_toNat hd]
  omega

/-- Only zero begins with the digit 0. -/
theorem dec_head_ne_zero {v : Pos} (hv : v ≠ 0) : (dec v).head? ≠ some 0x30 :=
  decDigits_head v.toNat v.toNat (Nat.le_refl _) (BitVec.toNat_ne.mp hv)

/-- Settles O4. -/
theorem decimalTextSpellsThePosition : Obligations.DecimalTextSpellsThePosition := by
  intro v
  obtain ⟨hmin, hmax⟩ := dec_length v
  exact ⟨readDigits_dec_eq v, hmin, hmax, fun _ => dec_byte_bounds, dec_head_ne_zero, rfl⟩

/-! ## Encoder commands of a ready block -/

/-- An encoder command with a frame leaves it on the result port and writes nothing else (R152, log 9). -/
theorem exec_of_frameOf_ok {i : Instr} {s : State} {r : Except ErrCode (List Byte)} {frame : List Byte}
    (hb : s.busy = false) (hs : s.st = .idle) (hi : frameOf s.params i = some r) (hr : r = .ok frame) :
    exec i s = .next { s with ret := .frame frame } := by
  subst hr
  exact exec_pure hi hb hs

theorem frameStop_eq : frameStop = .ok [128, 19] := rfl

/-- Settles O8. -/
theorem simpleCommandsReturnTheirFrames : Obligations.SimpleCommandsReturnTheirFrames := by
  intro s hb hs
  exact ⟨exec_of_frameOf_ok hb hs rfl frameStop_eq, exec_of_frameOf_ok hb hs rfl frameHomeAll_eq,
    exec_of_frameOf_ok hb hs rfl frameMread_eq⟩

/-- R144, by the polarity alone. -/
theorem frameAtcOn_eq (p : Params) : frameAtcOn p =
    .ok [128, 28, 0x41, 0x54, 0x43, 0x20, (if p.polarity = .oneIsOn then 0x31 else 0x30), 128, 99] := by
  simpa using frameAtc_eq p true

/-- R145, by the polarity alone. -/
theorem frameAtcOff_eq (p : Params) : frameAtcOff p =
    .ok [128, 28, 0x41, 0x54, 0x43, 0x20, (if p.polarity = .oneIsOn then 0x30 else 0x31), 128, 99] := by
  simpa using frameAtc_eq p false

/-- Settles O9. -/
theorem autotuneCommandsReturnTheirFrames : Obligations.AutotuneCommandsReturnTheirFrames := by
  intro s hb hs
  exact ⟨exec_of_frameOf_ok hb hs rfl (frameAtcOn_eq s.params), exec_of_frameOf_ok hb hs rfl (frameAtcOff_eq s.params),
    exec_of_frameOf_ok hb hs rfl frameAtcStep_eq⟩

/-- R147: the frame for the stubs 1 to 3, and InvalidArgument for every other id. -/
theorem frameStubHome_ite (n : Nat) : frameStubHome n =
    if n = 1 ∨ n = 2 ∨ n = 3 then .ok [128, 28, 0x4D, 0x31, 0x48, 0x20, BitVec.ofNat 8 (0x30 + n), 128, 99]
    else .error .invalidArgument := by
  split
  next hn => exact frameStubHome_eq hn
  next hn => rw [frameStubHome, if_neg (mt (isStub_iff n).mp hn)]

/-- Settles O10: the stub's check decides between the frame and the error; the push commands have no check. -/
theorem stubHomeAndPushReturnTheirFrames : Obligations.StubHomeAndPushReturnTheirFrames := by
  intro s n hb hs
  refine ⟨?stubHome, exec_of_frameOf_ok hb hs rfl (framePush_eq true), exec_of_frameOf_ok hb hs rfl (framePush_eq false)⟩
  case stubHome =>
    rw [exec_pure rfl hb hs, frameStubHome_ite]
    split
    · rfl
    · rfl

/-- Settles O11: no byte of the text is 128, so the frame carries it as it stands (R101). -/
theorem setPosReturnsItsUnstuffedFrame : Obligations.SetPosReturnsItsUnstuffedFrame := by
  intro s p1 p2 p3 hp hb hs
  exact exec_of_frameOf_ok hb hs rfl (frameSetPos_eq hp p1 p2 p3)

end Sys2Proof.Machine
end

section
/-! PROOFS. One event of an active read, by the parser's state (R175, R177 to R189, R191, R192). -/

namespace Sys2Proof.Machine

/-- Settles O21. -/
theorem timeoutAndRxErrorEndTheRead : Obligations.TimeoutAndRxErrorEndTheRead :=
  fun _ _ hw hs => ⟨fun hr => step_event hw hs hr, fun hr => step_event hw hs hr⟩

/-! ## Outside an object -/

theorem inSync_eq {s : State} (hs : s.st = .sync) (b : Byte) :
    inSync b s = { s with st := if b = MARKER then .classify else .sync } := by
  unfold inSync
  split
  · rfl
  · exact (with_st_eq_self hs).symm

/-- Settles O22. -/
theorem scanningOutsideAnObject : Obligations.ScanningOutsideAnObject := by
  intro s b es hw hr
  refine ⟨fun hs => ?sync, fun hs (hb : b = MARKER) => ?escaped, fun hs hk (hb : b ≠ MARKER) => ?confirm⟩
  case sync =>
    rw [step_sync hw hs hr, inSync_eq (by exact hs)]
    rfl
  case escaped => rw [step_classify hw hs hr, inClassify, if_pos hb]
  case confirm =>
    rw [step_classify hw hs hr, inClassify, if_neg hb, if_pos (by exact hk), classifyConfirm]
    exact apply_ite _ _ _ _

/-- With P_MAX_RESYNC = INF a resync event never ends the read (R175). -/
theorem resyncEvent_inf {s : State} (h : s.params.maxResync = none) (f : State → State) :
    resyncEvent f s = f { s with rcnt := s.rcnt + 1 } := by
  rw [resyncEvent_eq, overResync_inf h, if_neg Bool.false_ne_true]

/-- With a finite P_MAX_RESYNC it does exactly where the new count exceeds the bound (R175). -/
theorem resyncEvent_some {s : State} {m : Nat} (h : s.params.maxResync = some m) (f : State → State) :
    resyncEvent f s = if m < s.rcnt + 1 then finish (.err .protocolDesync) { s with rcnt := s.rcnt + 1 }
      else f { s with rcnt := s.rcnt + 1 } := by
  rw [resyncEvent_eq, overResync_some h]
  simp only [decide_eq_true_eq]

/-- Settles O23. -/
theorem classifyInObjectRead : Obligations.ClassifyInObjectRead := by
  intro s b es hw hr hs hk (hb : b ≠ MARKER) resynced desynced
  have hobject : step s = .next (classifyObject b { s with rx := es }) := by
    rw [step_classify hw hs hr, inClassify, if_neg hb, if_neg (by exact hk)]
  have hresync (hd : b ≠ DATA_BEGIN) : step s =
      .next (resyncEvent (fun t => { t with st := .sync }) { s with rx := es }) := by
    rw [hobject, classifyObject, if_neg hd]
  refine ⟨fun (hd : b = DATA_BEGIN) => ?opens, fun hd hinf => ?unbounded, fun m hd hm => ?bounded⟩
  case opens => rw [hobject, classifyObject, if_pos hd]
  case unbounded => rw [hresync hd, resyncEvent_inf (by exact hinf)]
  case bounded =>
    rw [hresync hd, resyncEvent_some (by exact hm)]
    rfl

/-! ## Inside an object -/

/-- Settles O24. -/
theorem payloadBytesAreCollected : Obligations.PayloadBytesAreCollected := by
  intro s b es hw hr hs
  rw [step_payload hw hs hr, inPayload, appendByte]
  refine (apply_ite _ _ _ _).trans (congrArg (ite _ _) ?_)
  exact apply_ite _ _ _ _

/-- DATA_BEGIN and every code without a meaning are the same resync event, but for where the parser goes on
(R186, R187). -/
theorem inPmark_resync {b : Byte} (hm : b ≠ MARKER) (he : b ≠ MDO_END) (s : State) :
    inPmark b s = .next (resyncEvent
      (fun t => { t with buf := [], st := if b = DATA_BEGIN then .payload else .sync }) s) := by
  by_cases hd : b = DATA_BEGIN
  · subst hd
    exact inPmark_dataBegin s
  · simp only [inPmark_abandon hm he hd, if_neg hd]

/-- Settles O25. -/
theorem markedBytesInsideAnObject : Obligations.MarkedBytesInsideAnObject := by
  intro s b es hw hr hs he resynced desynced
  refine ⟨fun hb => ?literal, fun hb hinf => ?unbounded, fun m hb hm => ?bounded⟩
  case literal =>
    rw [step_pmark hw hs hr, hb]
    exact (inPmark_marker _).trans (apply_ite _ _ _ _)
  case unbounded =>
    rw [step_pmark hw hs hr, inPmark_resync hb he, resyncEvent_inf (by exact hinf)]
    rfl
  case bounded =>
    rw [step_pmark hw hs hr, inPmark_resync hb he, resyncEvent_some (by exact hm)]
    rfl

/-- The shape flag of a payload long enough to be decoded (R192). -/
theorem shapeVerified_long (h a1 b1 a2 b2 a3 b3 : Byte) (rest : List Byte) :
    shapeVerified (h :: a1 :: b1 :: a2 :: b2 :: a3 :: b3 :: rest) =
      (decide (rest.length = 3) && h.getLsbD 4 && h.getLsbD 5 && !h.getLsbD 2) := by
  have hlen : ((h :: a1 :: b1 :: a2 :: b2 :: a3 :: b3 :: rest).length == 10) = decide (rest.length = 3) := by
    simp [Bool.beq_eq_decide_eq]
  rw [shapeVerified, hlen]
  rfl

/-- Settles O26: the completed object is handed over, or decoded where it is long enough. -/
theorem mdoEndCompletesTheObject : Obligations.MdoEndCompletesTheObject := by
  intro s es hw hr hs
  have hdone (hk : s.kind ≠ .confirm) : step s = .next (finish
      (if s.kind = .object then .okObject s.buf else motorResult s.buf) { s with rx := es }) :=
    (step_pmark_mdoEnd hw hs hr).trans (completeObject_eq hk)
  refine ⟨fun hk => ?object, fun hk hshort => ?short, fun hst a1 b1 a2 b2 a3 b3 rest hk hbuf => ?positions⟩
  case object =>
    rw [hdone (by simp [hk]), if_pos hk]
    rfl
  case short =>
    rw [hdone (by simp [hk]), if_neg (by simp [hk]), motorResult_short hshort]
    rfl
  case positions =>
    rw [hdone (by simp [hk]), if_neg (by simp [hk]), hbuf, motorResult_long, shapeVerified_long]
    simp only [LE16_eq]
    rfl

end Sys2Proof.Machine
end

section
/-! PROOFS. The reads as operations of their own (R174, R193 to R195), and the noise an object read skips before its frame
(R178, R179, R198). -/

namespace Sys2Proof.Machine

/-- Settles O33. -/
theorem readsStart : Obligations.ReadsStart :=
  fun _ hb hs => ⟨exec_of_whenIdle hb hs rfl rfl, exec_of_whenIdle hb hs rfl rfl, exec_of_whenIdle hb hs rfl rfl⟩

/-- A plain byte or an escaped pair in Sync is skipped, whatever the read (R178, R179). -/
theorem steps_sync_unit {s : State} (hw : hostWaits s) (hs : s.st = .sync) {b : Byte} {es : List RxEvent}
    (hr : s.rx = bytesIn (escape [b]) ++ es) : steps (escape [b]).length s = .next { s with rx := es } := by
  by_cases hb : b = MARKER
  · subst hb
    exact (steps_sync_pair hw hs hr).trans (congrArg _ (inClassify_marker (s := { s with rx := es }) hs))
  · rw [escape_other hb] at hr ⊢
    exact (steps_one s).trans (step_sync_plain hw hs hb hr)

/-- Escaped bytes in Sync are skipped, one step for each byte on the wire. -/
theorem steps_sync_escape {s : State} (hw : hostWaits s) (hs : s.st = .sync) {q : List Byte} {es : List RxEvent}
    (hr : s.rx = bytesIn (escape q) ++ es) : steps (escape q).length s = .next { s with rx := es } := by
  induction q generalizing s with
  | nil =>
    have hr : s.rx = es := hr
    rw [← hr]
    rfl
  | cons b q ih =>
    rw [escape_cons, bytesIn_append, List.append_assoc] at hr
    rw [escape_cons, List.length_append]
    exact steps_trans (steps_sync_unit hw hs hr) (ih (s := { s with rx := bytesIn (escape q) ++ es }) hw hs rfl)

/-- Noise of plain bytes and escaped pairs changes nothing about how an object read in Sync takes its frame. -/
theorem steps_sync_noise_frame {s : State} (hw : hostWaits s) (hs : s.st = .sync) (hk : s.kind ≠ .confirm)
    {noise p f : List Byte} {es : List RxEvent} (hn : unescape noise ≠ none) (hf : stuffObjFrame p MDO_END = .ok f)
    (hr : s.rx = bytesIn (noise ++ f) ++ es) (hroom : p.length ≤ s.params.maxPayload) :
    steps (noise.length + f.length) s = completeObject { s with rx := es, buf := p, st := .pmark } := by
  obtain ⟨q, hq⟩ := Option.ne_none_iff_exists'.mp hn
  obtain rfl := escape_of_unescape hq
  rw [bytesIn_append, List.append_assoc] at hr
  exact steps_trans (steps_sync_escape hw hs hr)
    (steps_sync_frame (s := { s with rx := bytesIn f ++ es }) hw hs hk hf rfl hroom)

/-- Settles O37: the noise is escaped bytes, which both reads skip in Sync. -/
theorem leadingNoiseIsTolerated : Obligations.LeadingNoiseIsTolerated := by
  intro s noise p f es hw hb hs hn hf hroom hr
  obtain ⟨-, hobject, hmotor⟩ := readsStart s hb hs
  refine ⟨?object, fun hst a1 b1 a2 b2 a3 b3 rest hp => ?motor⟩
  case object =>
    rw [hobject, andThen_next]
    exact steps_sync_noise_frame (by exact hw) rfl (by simp) hn hf hr hroom
  case motor =>
    subst hp
    rw [hmotor, andThen_next]
    exact steps_sync_noise_frame (by exact hw) rfl (by simp) hn hf hr hroom

end Sys2Proof.Machine
end

section
/-! PROOFS. Which steps stop the machine (R174, R189, R258): requests are refused while an operation is in progress, and the
parser never stops where the invariant holds. -/

namespace Sys2Proof.Machine

/-- Settles O20. -/
theorem operationsInProgressRefuseRequests : Obligations.OperationsInProgressRefuseRequests := by
  intro i s hi
  obtain ⟨f, hf⟩ := exec_operation hi
  rw [hf]
  exact ⟨fun hb => whenIdle_busy hb _, fun hb hs => whenIdle_reading hb hs _⟩

/-! ## The parser never stops -/

/-- Inside an object the invariant leaves no confirmation read, for which alone a completion has no meaning (R189). -/
theorem exists_next_inPmark {s : State} (h : Inv s) (hs : s.st = .pmark) (b : Byte) : ∃ t, inPmark b s = .next t := by
  unfold inPmark
  split
  · exact ⟨_, rfl⟩
  · split
    · exact ⟨_, completeObject_eq (kind_of_inside h (.inr hs))⟩
    · split <;> exact ⟨_, rfl⟩

theorem exists_next_onEvent {s : State} (h : Inv s) (e : RxEvent) : ∃ t, onEvent e s = .next t := by
  cases e with
  | timeout | rxError => exact ⟨_, rfl⟩
  | byte b =>
    rw [onEvent_byte]
    cases hs : s.st with
    | idle => exact ⟨s, by simp only [onByte, hs]⟩
    | sync => exact ⟨_, onByte_sync hs b⟩
    | classify => exact ⟨_, onByte_classify hs b⟩
    | payload => exact ⟨_, onByte_payload hs b⟩
    | pmark => rw [onByte_pmark hs]; exact exists_next_inPmark h hs b

theorem exists_next_feed {s : State} (h : Inv s) (es : List RxEvent) : ∃ t, feed es s = .next t := by
  induction es generalizing s with
  | nil => exact ⟨_, rfl⟩
  | cons e es ih =>
    unfold feed
    split
    · exact ⟨_, rfl⟩
    · obtain ⟨u, hu⟩ := exists_next_onEvent h e
      rw [hu, andThen_next]
      exact ih (inv_onEvent h hu)

theorem inv_rxRead {s : State} (h : Inv s) : Inv (rxRead s).2 := by
  cases hr : s.rx with
  | nil => rw [rxRead_nil hr]; exact inv_channels h ..
  | cons e es => rw [rxRead_cons hr]; exact inv_channels h ..

/-- A step with no request answers a next state. -/
theorem exists_next_background {s : State} (h : Inv s) : ∃ t, background s = .next t := by
  unfold background
  split
  · exact ⟨_, rfl⟩
  · exact exists_next_onEvent (inv_rxRead h) _

/-! ## What a step can do -/

/-- The reason for which an operation is refused while another is in progress (R258, log 10). -/
def InProgress (s : State) (r : Refusal) : Prop :=
  (r = .busy ∧ s.busy = true) ∨ (r = .readActive ∧ s.st ≠ .idle)

theorem InProgress.ready_eq_false {s : State} {r : Refusal} (h : InProgress s r) : ready s = false := by
  rcases h with ⟨-, hb⟩ | ⟨-, hs⟩
  · simp [ready, hb]
  · simp [ready, hs]

/-- An instruction answers a next state, or it is an operation refused because another is in progress. -/
theorem exec_next_or_refused {s : State} (h : Inv s) (i : Instr) :
    (∃ t, exec i s = .next t) ∨ ∃ r, exec i s = .refused r ∧ InProgress s r := by
  cases hi : rxPairCode i with
  | some c =>
    rw [exec_pair hi, feedPair_eq_feed]
    exact .inl (exists_next_feed h _)
  | none =>
    obtain ⟨hbusy, hreading⟩ := operationsInProgressRefuseRequests i s hi
    obtain ⟨f, hf⟩ := exec_operation hi
    cases hb : s.busy with
    | true => exact .inr ⟨_, hbusy hb, .inl ⟨rfl, hb⟩⟩
    | false =>
      by_cases hs : s.st = .idle
      · exact .inl ⟨f s, by rw [hf, whenIdle_ready hb hs]⟩
      · exact .inr ⟨_, hreading hb hs, .inr ⟨rfl, hs⟩⟩

/-- With an operation in progress the request that arrives is one that does not wait. -/
theorem fetch_run_in_progress {s u : State} {i : Instr} (h : fetch s = .run i u) (hr : ready s = false) :
    ∃ q rest, s.port = q :: rest ∧ q.waits = false := by
  obtain ⟨q, rest, hp, -, -, -, hready | hwaits⟩ := fetch_run h
  · simp [hr] at hready
  · exact ⟨q, rest, hp, hwaits⟩

/-- A step answers a next state, or a request is refused: an ill-formed one, or one that did not wait for the operation in
progress. -/
theorem step_next_or_refused {s : State} (h : Inv s) :
    (∃ t, step s = .next t) ∨ ∃ r, step s = .refused r ∧ (r = .illFormed ∨ InProgress s r) ∧
      ∃ q rest, s.port = q :: rest ∧ (q.instr.wellFormed = false ∨ q.waits = false) := by
  cases hf : fetch s with
  | waiting =>
    rw [step_of_waiting hf]
    exact .inl (exists_next_background h)
  | reject r =>
    obtain ⟨hr, q, rest, hp, hwf⟩ := fetch_reject hf
    exact .inr ⟨r, by rw [step, hf], .inl hr, q, rest, hp, .inl hwf⟩
  | run i u =>
    rw [step_of_fetch_run hf]
    obtain ⟨-, port, -, -, rfl, -⟩ := fetch_run hf
    refine (exec_next_or_refused (inv_channels h ..) i).imp_right fun ⟨r, hx, hbusy⟩ => ?_
    have hbusy : InProgress s r := hbusy
    obtain ⟨q, rest, hp, hwaits⟩ := fetch_run_in_progress hf hbusy.ready_eq_false
    exact ⟨r, hx, .inr hbusy, q, rest, hp, .inr hwaits⟩

/-- Settles O53. -/
theorem noStepFaults : Obligations.NoStepFaults := by
  intro s h
  rcases step_next_or_refused h with ⟨t, ht⟩ | ⟨r, hr, hreason⟩
  · rw [ht]
    exact ⟨nofun, nofun⟩
  · rw [hr]
    refine ⟨nofun, ?_⟩
    rintro _ ⟨⟩
    exact hreason

end Sys2Proof.Machine
end

section
/-! PROOFS. How a read ends (R175, R180, R220, R256, R260): a confirmation read with one of its three results, and an error
with the block ready once its transaction has ended. -/

namespace Sys2Proof.Machine

/-- From `s` to `t` one RX event is used up: a listed one is gone from the backlog, or a free one is drawn (R72). -/
def TookEvent (s t : State) : Prop :=
  (∃ taken, s.rx = taken :: t.rx ∧ t.draws = s.draws) ∨ (s.rx = [] ∧ t.rx = [] ∧ t.draws = s.draws + 1)

/-- The parser's step is one event on a state that differs in the backlog and the counter of draws only. -/
theorem exists_event_of_rxStep {s t : State} (h : rxStep s = .next t) :
    ∃ e, onEvent e { s with rx := t.rx, draws := t.draws } = .next t ∧ TookEvent s t := by
  unfold rxStep at h
  cases hr : s.rx with
  | nil =>
    rw [rxRead_nil hr] at h
    have hrx : t.rx = [] := by rw [onEvent_frame h]; exact hr
    have hdraws : t.draws = s.draws + 1 := by rw [onEvent_frame h]
    refine ⟨Config.freeRx s.draws, ?_, .inr ⟨hr, hrx, hdraws⟩⟩
    rw [hrx, hdraws, ← hr]
    exact h
  | cons e es =>
    rw [rxRead_cons hr] at h
    have hrx : t.rx = es := by rw [onEvent_frame h]
    have hdraws : t.draws = s.draws := by rw [onEvent_frame h]
    refine ⟨e, ?_, .inl ⟨e, by rw [hr, hrx], hdraws⟩⟩
    rw [hrx, hdraws]
    exact h

/-! ## A confirmation read -/

/-- One event of a confirmation read outside an object: the read goes on with its result and counter as they were, or ends
with one of its own results. -/
theorem onEvent_confirmation {e : RxEvent} {s t : State} (hk : s.kind = .confirm) (hs : s.st = .sync ∨ s.st = .classify)
    (h : onEvent e s = .next t) :
    ((t.st = .sync ∨ t.st = .classify) ∧ t.res = s.res ∧ t.rcnt = s.rcnt) ∨
      (t.st = .idle ∧ t.rcnt = s.rcnt ∧ ReadResult s.params .confirm t.res) := by
  cases e with
  | timeout => cases h; exact .inr ⟨rfl, rfl, readResult_timeout _ _⟩
  | rxError => cases h; exact .inr ⟨rfl, rfl, readResult_transportError _ _⟩
  | byte b =>
    rw [onEvent_byte] at h
    rcases hs with hs | hs
    · rw [onByte_sync hs, inSync_eq hs] at h
      cases h
      refine .inl ⟨?_, rfl, rfl⟩
      by_cases hb : b = MARKER <;> simp [hb]
    · rw [onByte_classify hs, inClassify, if_pos hk, classifyConfirm] at h
      cases h
      split
      · exact .inl ⟨.inl rfl, rfl, rfl⟩
      · split
        · exact .inr ⟨rfl, rfl, .inl rfl⟩
        · exact .inl ⟨.inl rfl, rfl, rfl⟩

/-- Settles O27. -/
theorem confirmationReadNeverDesyncs : Obligations.ConfirmationReadNeverDesyncs := by
  intro s t hw hk hs h
  have ha : s.st ≠ .idle := by rcases hs with hs | hs <;> simp [hs]
  rw [step_active hw ha] at h
  obtain ⟨e, he, -⟩ := exists_event_of_rxStep h
  have hkind : t.kind = .confirm := by rw [onEvent_frame he]; exact hk
  have hcases := onEvent_confirmation (s := { s with rx := t.rx, draws := t.draws }) hk hs he
  exact hcases.imp_left fun hgoesOn => ⟨hkind, hgoesOn⟩

/-! ## The counter, event by event -/

/-- A move keeps the counter, or it is a resync event, which ends the read with ProtocolDesync if at all (R175). -/
def CountsResync (s t : State) : Prop :=
  t.rcnt = s.rcnt ∨ (t.rcnt = s.rcnt + 1 ∧ (t.st = .idle → t.res = .err .protocolDesync))

theorem countsResync_resyncEvent {f : State → State} (hcount : ∀ u, (f u).rcnt = u.rcnt) (hst : ∀ u, (f u).st ≠ .idle)
    (s : State) : CountsResync s (resyncEvent f s) := by
  rw [resyncEvent_eq]
  split
  · exact .inr ⟨rfl, fun _ => rfl⟩
  · exact .inr ⟨hcount _, fun hi => absurd hi (hst _)⟩

theorem rcnt_appendByte {f : State → State} (hcount : ∀ u, (f u).rcnt = u.rcnt) (b : Byte) (s : State) :
    (appendByte b f s).rcnt = s.rcnt := by
  unfold appendByte
  split
  · rfl
  · exact hcount _

theorem countsResync_inClassify (b : Byte) (s : State) : CountsResync s (inClassify b s) := by
  unfold inClassify
  split
  · exact .inl rfl
  · split
    · unfold classifyConfirm
      split <;> exact .inl rfl
    · unfold classifyObject
      split
      · exact .inl rfl
      · exact countsResync_resyncEvent (fun _ => by rfl) (fun _ => by simp) s

theorem rcnt_completeObject {s t : State} (h : completeObject s = .next t) : t.rcnt = s.rcnt := by
  unfold completeObject at h
  split at h <;> cases h <;> rfl

theorem countsResync_inPmark {b : Byte} {s t : State} (h : inPmark b s = .next t) : CountsResync s t := by
  by_cases hm : b = MARKER
  · rw [hm, inPmark_marker] at h
    cases h
    exact .inl (rcnt_appendByte (fun _ => by rfl) _ s)
  · by_cases he : b = MDO_END
    · subst he
      exact .inl (rcnt_completeObject h)
    · rw [inPmark_resync hm he] at h
      cases h
      exact countsResync_resyncEvent (fun _ => by rfl) (fun _ => by dsimp only; split <;> simp) s

theorem countsResync_onEvent {e : RxEvent} {s t : State} (h : onEvent e s = .next t) : CountsResync s t := by
  cases e with
  | timeout | rxError => cases h; exact .inl rfl
  | byte b =>
    rw [onEvent_byte] at h
    cases hs : s.st with
    | idle =>
      simp only [onByte, hs] at h
      cases h
      exact .inl rfl
    | sync =>
      rw [onByte_sync hs, inSync_eq hs] at h
      cases h
      exact .inl rfl
    | classify =>
      rw [onByte_classify hs] at h
      cases h
      exact countsResync_inClassify b s
    | payload =>
      rw [onByte_payload hs, inPayload] at h
      cases h
      split
      · exact .inl rfl
      · exact .inl (rcnt_appendByte (fun _ => rfl) b s)
    | pmark =>
      rw [onByte_pmark hs] at h
      exact countsResync_inPmark h

/-! ## Errors -/

/-- An error of a transaction is its read's (R220). -/
theorem eq_err_of_mapResult {x : Txn} {r : Result} {e : ErrCode} (h : mapResult x r = .err e) : r = .err e := by
  cases x <;> cases r <;> simp_all [mapResult, ackResult]

/-- The step after the read is the end of the transaction: a request that arrives early is refused, or is a pair, which
leaves the transaction running. -/
theorem eq_endTxn_of_step {s t : State} (hb : s.busy = true) (hs : s.st = .idle) (h : step s = .next t)
    (ht : t.busy = false) : t = endTxn s := by
  rcases step_shape_cases h with ⟨_, _, -, -, hop⟩ | ⟨_, _, _, _, -, -, hpair⟩ | ⟨-, hactive, -⟩ | hend | rfl
  · simp [hop.busy] at hb
  · rw [(feedPair_frame hpair).1] at ht
    simp [hb] at ht
  · exact absurd hs hactive
  · exact hend
  · simp [hb] at ht

/-- A transaction that ends with an error keeps everything but `busy` and the model's `cur`. -/
theorem endTxn_of_err {s : State} {e : ErrCode} (hb : s.busy = true) (h : Inv s) (hres : (endTxn s).res = .err e) :
    s.res = .err e ∧ endTxn s = { s with busy := false, cur := none } := by
  obtain ⟨x, hx⟩ := Option.ne_none_iff_exists'.mp (h.busyCur.mp hb)
  rw [endTxn_some hx] at hres ⊢
  have hread : s.res = .err e := eq_err_of_mapResult hres
  refine ⟨hread, ?_⟩
  rw [hread, mapResult_err, if_neg (by simp), ← hread]

/-- Settles O60: the step that ends the read, and the step that ends its transaction. -/
theorem readErrorsLeaveTheBlockReady : Obligations.ReadErrorsLeaveTheBlockReady := by
  refine ⟨fun s t e h hf hs hstep hst hres => ?readEnds, fun s t e h hb hs hstep ht hres => ?transactionEnds⟩
  case readEnds =>
    have hread : rxStep s = .next t := by rwa [step_of_waiting hf, background, if_neg hs] at hstep
    have hbuf : t.buf = [] := (inv_rxStep h hread).bufEmpty (by simp [hst]) (by simp [hst])
    have hframe := (rxStep_frame hread).1
    rw [hst, hbuf, hres] at hframe
    obtain ⟨ev, hev, htook⟩ := exists_event_of_rxStep hread
    refine ⟨hframe, ?_, htook⟩
    refine (countsResync_onEvent hev).imp_right fun ⟨hcount, hdesync⟩ => ⟨hcount, ?_⟩
    exact Result.err.inj (hres.symm.trans (hdesync hst))
  case transactionEnds =>
    obtain rfl := eq_endTxn_of_step hb hs hstep ht
    obtain ⟨hread, hend⟩ := endTxn_of_err hb h hres
    rw [hend]
    exact ⟨hread, rfl, h.bufEmpty (by simp [hs]) (by simp [hs]), (ready_iff _).mpr ⟨rfl, hs⟩⟩

end Sys2Proof.Machine
end

section
/-! PROOFS. The operations that are over in one step (R221, R222, R227, R228, R230, R254), and the end of a transaction whose
read is over (R220, R223 to R229). -/

namespace Sys2Proof.Machine

/-! ## Arguments -/

theorem isStub_eq_false {n : Nat} (h1 : n ≠ 1) (h2 : n ≠ 2) (h3 : n ≠ 3) : isStub n = false := by
  rw [← Bool.not_eq_true, isStub_iff, not_or, not_or]
  exact ⟨h1, h2, h3⟩

/-- An operation whose check fails ends before its write (R220, R254). -/
theorem transact_checkFailed {s : State} {argOk : Bool} (hs : s.st = .idle) (hc : s.conn = .connected)
    (hcheck : argOk = false) (frame : Except ErrCode (List Byte)) (pre : State → State) (read : Option Txn) :
    transact argOk frame pre read s = { s with res := .err .invalidArgument, busy := false, cur := none } := by
  rw [hcheck, transact_badArgument hs hc]

/-- Settles O39: the check that fails is the template's own, made before its write. -/
theorem badArgumentsWriteNothing : Obligations.BadArgumentsWriteNothing := by
  intro s n hb hs hc
  refine ⟨fun h1 h2 h3 => ?stub, fun hoff => ?singleStep⟩
  case stub => rw [exec_selectedStubHome_ready hb hs, transact_checkFailed hs hc (isStub_eq_false h1 h2 h3)]
  case singleStep => rw [exec_singleAutotuningStep_ready hb hs, transact_checkFailed hs hc hoff]

/-! ## The connection -/

/-- What a connect does from an idle block, by the environment's answer to the open (R221). -/
theorem connectOp_eq {s : State} (hs : s.st = .idle) (address : List Byte) (baud : Nat) :
    connectOp address baud s = { s with
      openDraws := (drawOpen s).2.openDraws, draws := (drawOpen s).2.draws,
      calls := s.calls ++ (if s.conn = .connected then [.closeLink] else []) ++ [.openLink address baud],
      conn := if (drawOpen s).1 then .connected else .disconnected,
      continuousOff := if (drawOpen s).1 then false else s.continuousOff,
      res := if (drawOpen s).1 then .ok else .err .transportError,
      busy := false, cur := none } := by
  rw [connectOp, openLink_eq, closeLink_eq, drawOpen_of_eq (s := s) (by rfl) (by rfl)]
  cases (drawOpen s).1 with
  | true => rfl
  | false => exact raise_idle (by exact hs) _

/-- Settles O40. -/
theorem connectOpensOrFails : Obligations.ConnectOpensOrFails := by
  rintro s address baud _ hb hs rfl
  exact exec_of_whenIdle hb hs rfl (connectOp_eq hs address baud)

/-- Settles O41. -/
theorem closeDisconnects : Obligations.CloseDisconnects := by
  intro s hb hs
  refine exec_of_whenIdle hb hs rfl ?_
  rw [closeOp, closeLink_eq]
  rfl

/-! ## Hard stop -/

/-- Settles O44: the template with no read ends after its write. -/
theorem hardStopWritesAndEnds : Obligations.HardStopWritesAndEnds := by
  intro s hb hs hc hw
  refine exec_of_whenIdle hb hs rfl ?_
  rw [frameStop_eq, transact_write_ok hc hw (noPreWrite_eq _)]
  rfl

/-! ## The end of a transaction -/

/-- A result that the operation keeps is left in `res` as the read wrote it. -/
theorem endTxn_keeps {s : State} {x : Txn} (hx : s.cur = some x) (hkeep : mapResult x s.res = s.res) (hok : s.res ≠ .ok) :
    endTxn s = { s with busy := false, cur := none } := by
  rw [endTxn_some hx, hkeep, if_neg fun h => hok h.2]

/-- A transaction that ends with OK; only an autotune-off also writes `continuousOff` (R226). -/
theorem endTxn_ok {s : State} {x : Txn} (hx : s.cur = some x) (hok : mapResult x s.res = .ok) :
    endTxn s = { s with
      busy := false, cur := none, res := .ok,
      continuousOff := if x = .autotuning false then true else s.continuousOff } := by
  rw [endTxn_some hx, hok]
  simp only [and_true]

/-- Settles O46. -/
theorem endOfTransaction : Obligations.EndOfTransaction := by
  intro s x hw hb hs hx
  rw [step_endTxn hw hb hs]
  refine ⟨fun e he => ?error, fun h m1 m2 m3 v hm hread => ?motor, fun hack hread => ?acknowledged⟩
  case error => rw [endTxn_keeps hx (by rw [he, mapResult_err]) (by simp [he])]
  case motor => rw [endTxn_keeps hx (by rw [hread]; rfl) (by simp [hm])]
  case acknowledged =>
    have hok : mapResult x s.res = .ok := by
      rcases hack with hc | ⟨p, hp⟩
      · rw [hc, mapResult_confirm hread]
      · rw [hp, mapResult_object hread]
    rw [endTxn_ok hx hok]

end Sys2Proof.Machine
end

section
/-! PROOFS. The transactions with a read of their own kind from request to end (R223 to R225, log 12): the write, the bytes
of the answer, and one step more. -/

namespace Sys2Proof.Machine

/-- The block once the transaction `x` has sent `bytes` and waits in Sync for its read (R174, R220). -/
def awaitingRead (x : Txn) (bytes : List Byte) (s : State) : State :=
  { s with
    writeDraws := (drawWrite s).2.writeDraws, draws := (drawWrite s).2.draws, tx := s.tx ++ bytes,
    busy := true, res := .none, buf := [], rcnt := 0, st := .sync, cur := some x, kind := readOf s.params x }

/-- A connected block whose write succeeds: a transaction with no check of its own sends its frame, and where `n` steps end
its read with the result `r`, one step more ends the transaction (R220). -/
theorem transaction_run {i : Instr} {frame : Params → Except ErrCode (List Byte)} {x : Txn} {bytes : List Byte} {s : State}
    {n : Nat} {r : Result} {es : List RxEvent} (hw : hostWaits s) (hb : s.busy = false) (hs : s.st = .idle)
    (hc : s.conn = .connected) (hok : (drawWrite s).1 = .ok)
    (hexec : exec i s = whenIdle s fun u => .next (transact true (frame u.params) noPreWrite (some x) u))
    (hframe : frame s.params = .ok bytes)
    (hread : steps n (awaitingRead x bytes s) = .next (finish r { awaitingRead x bytes s with rx := es })) :
    andThen (exec i s) (steps (n + 1)) = .next (endTxn (finish r { awaitingRead x bytes s with rx := es })) := by
  have hstart : exec i s = .next (awaitingRead x bytes s) :=
    exec_of_whenIdle hb hs hexec (hframe ▸ transact_start hc hok (noPreWrite_eq _) bytes x)
  rw [hstart, andThen_next]
  exact steps_trans hread ((steps_one _).trans (step_endTxn (by exact hw) rfl rfl))

/-- The read of an object transaction takes the frame of a payload that fits, and ends with what the payload gives (R189). -/
theorem steps_awaitingRead_frame {x : Txn} {bytes p f : List Byte} {s : State} {es : List RxEvent} (hw : hostWaits s)
    (hk : readOf s.params x ≠ .confirm) (hf : stuffObjFrame p MDO_END = .ok f) (hroom : p.length ≤ s.params.maxPayload)
    (hr : s.rx = bytesIn f ++ es) :
    steps f.length (awaitingRead x bytes s) =
      .next (finish (if readOf s.params x = .object then .okObject p else motorResult p)
        { awaitingRead x bytes s with rx := es }) :=
  (steps_sync_frame (s := awaitingRead x bytes s) hw rfl hk hf hr hroom).trans (completeObject_eq (by exact hk))

/-- The read of a confirmed transaction skips the noise and ends with the confirmation (R180). -/
theorem steps_awaitingRead_confirm {x : Txn} {bytes noise : List Byte} {s : State} {es : List RxEvent} (hw : hostWaits s)
    (hk : readOf s.params x = .confirm) (hn : skippedByConfirm noise = true)
    (hr : s.rx = bytesIn (noise ++ [MARKER, CONFIRM]) ++ es) :
    steps (noise.length + 2) (awaitingRead x bytes s) =
      .next (finish .okConfirm { awaitingRead x bytes s with rx := es }) := by
  rw [bytesIn_append, List.append_assoc] at hr
  exact steps_trans (steps_sync_skipped (s := awaitingRead x bytes s) hw rfl hk hn hr)
    (steps_sync_confirm (by exact hw) rfl hk rfl)

/-- Settles O47: the object that answers is acknowledged with OK. -/
theorem setMotorPositionsRunsToOk : Obligations.SetMotorPositionsRunsToOk := by
  intro s p1 p2 p3 answer f es hp hw hb hs hc hok hf hroom hr
  rw [transaction_run (frame := fun p => frameSetPos p p1 p2 p3) hw hb hs hc hok rfl (frameSetPos_eq hp p1 p2 p3)
    (steps_awaitingRead_frame hw (by simp [readOf]) hf hroom hr), endTxn_ok rfl rfl]
  rfl

/-- Settles O48: the positions that the read decoded are kept whole. -/
theorem readMotorPositionsRunsToThePositions : Obligations.ReadMotorPositionsRunsToThePositions := by
  intro s hst a1 b1 a2 b2 a3 b3 rest f es hw hb hs hc hok hf hroom hr
  have hfits : (hst :: a1 :: b1 :: a2 :: b2 :: a3 :: b3 :: rest).length ≤ s.params.maxPayload := by
    simp only [List.length_cons]
    omega
  rw [transaction_run (frame := fun _ => frameMread) hw hb hs hc hok rfl frameMread_eq
    (steps_awaitingRead_frame hw (by simp [readOf]) hf hfits hr), endTxn_keeps rfl rfl (by simp [readOf, motorResult_long])]
  rfl

/-- Settles O49: the confirmation behind the noise is acknowledged with OK. -/
theorem allStubsHomeRunsToOk : Obligations.AllStubsHomeRunsToOk := by
  intro s noise es hw hb hs hc hok hn hr
  rw [transaction_run (frame := fun _ => frameHomeAll) hw hb hs hc hok rfl frameHomeAll_eq
    (steps_awaitingRead_confirm hw rfl hn hr), endTxn_ok rfl rfl]
  rfl

end Sys2Proof.Machine
end

section
/-! PROOFS. The operations while disconnected (R251). -/

namespace Sys2Proof.Machine

/-- Settles O38: each of the eight is the template, so none gets past the check of the connection. -/
theorem disconnectedOperationsWriteNothing : Obligations.DisconnectedOperationsWriteNothing := by
  intro s p1 p2 p3 n on hb hs hc i hi
  simp only [List.mem_cons, List.not_mem_nil, or_false] at hi
  rcases hi with rfl | rfl | rfl | rfl | rfl | rfl | rfl | rfl
  all_goals exact exec_of_whenIdle hb hs rfl (transact_disconnected hs hc ..)

end Sys2Proof.Machine
end

section
/-! PROOFS. Reset, the creation of an instance (R280): the values it leaves, and the invariant there (R12, R15, R44, R45). -/

namespace Sys2Proof.Machine

/-- The parameters of the instance after reset are in their domain, whatever the OPEN ones are (R12, R15). -/
theorem wf_configParams : Config.params.wf = true := by
  have hset : Config.params.motorSet ≠ 128 := by
    unfold Config.params
    split
    case isTrue => decide
    case isFalse h => exact h
  have hroom : 7 ≤ Config.params.maxPayload := by decide
  exact (Bool.and_eq_true ..).mpr ⟨bne_iff_ne.mpr hset, decide_eq_true hroom⟩

/-- A new instance has no read, no transaction and no result, so only its parameters are in question (R280). -/
theorem inv_instantiate {p : Params} (hp : p.wf = true) (backlog : List Byte) : Inv (State.instantiate p backlog) where
  params := hp
  bufBound := Nat.zero_le _
  bufEmpty _ _ := rfl
  confirmOutside _ := ⟨nofun, nofun⟩
  rcntBound _ _ := Nat.zero_le _
  rcntActive hi := absurd rfl hi
  rcntConfirm _ := rfl
  busyCur := ⟨nofun, fun hc => absurd rfl hc⟩
  busyConn := nofun
  busyKind := nofun
  busyRes := nofun
  endConfirm := nofun
  endObject := nofun
  endMotor := nofun
  resPayload := nofun
  onCleared := nofun
  stepAllowed := nofun

/-- Settles O50: each register is a field that `State.instantiate` or `Config.params` writes out. -/
theorem resetValues : Obligations.ResetValues :=
  ⟨rfl, rfl, rfl, rfl, rfl, rfl, rfl, rfl, rfl, rfl⟩

/-- Settles O51. -/
theorem invariantHoldsAtReset : Obligations.InvariantHoldsAtReset :=
  ⟨inv_instantiate wf_configParams _, fun _ backlog hp => inv_instantiate hp backlog⟩

end Sys2Proof.Machine
end
